-- ==== Sys2Proof/Word.lean ====
section
/-! DEFINITION. The words of the machine: the widths of 00_scope.md R4 and the instruction fields of 30_encoding.md R81. -/

namespace Sys2Proof

/-- A V register, an ALU value, an immediate `kk`, a byte of memory: XLEN of R4. -/
abbrev Byte := BitVec 8

/-- An instruction word, `pc`, `I`, a call-stack entry (R4). -/
abbrev Word := BitVec 16

/-- The 12-bit address field `nnn` (R81). -/
abbrev Addr := BitVec 12

/-- The index of a V register, 0 to 15 (R20). -/
abbrev Reg := Fin 16

/-- A key code, 0x0 to 0xF (R187). -/
abbrev Key := Fin 16

/-- `VF`, the flag register, is `V[15]` (R21). -/
abbrev VF : Reg := 15

end Sys2Proof
end

