-- ==== Sys2Proof/Syntax.lean ====
section
/-! DEFINITION. The 34 instructions of 30_encoding.md R85, one constructor per row of spec/opcode_table.json, in the
table's order. The fields are those the instruction's format uses (R82, R91); bits that the decoder ignores (R87) are
not held. -/

namespace Sys2Proof

inductive Instr where
  /-- `CLS` (R121). -/
  | cls
  /-- `RET` (R131). -/
  | ret
  /-- `JP addr` (R132). -/
  | jp (nnn : Addr)
  /-- `CALL addr` (R133). -/
  | call (nnn : Addr)
  /-- `SE Vx,kk` (R134). -/
  | seImm (x : Reg) (kk : Byte)
  /-- `SNE Vx,kk` (R135). -/
  | sneImm (x : Reg) (kk : Byte)
  /-- `SE Vx,Vy` (R136). -/
  | seReg (x y : Reg)
  /-- `LD Vx,kk` (R151). -/
  | ldImm (x : Reg) (kk : Byte)
  /-- `ADD Vx,kk` (R152). -/
  | addImm (x : Reg) (kk : Byte)
  /-- `LD Vx,Vy` (R153). -/
  | ldReg (x y : Reg)
  /-- `OR Vx,Vy` (R154). -/
  | orReg (x y : Reg)
  /-- `AND Vx,Vy` (R155). -/
  | andReg (x y : Reg)
  /-- `XOR Vx,Vy` (R156). -/
  | xorReg (x y : Reg)
  /-- `ADD Vx,Vy` (R157). -/
  | addReg (x y : Reg)
  /-- `SUB Vx,Vy` (R158). -/
  | subReg (x y : Reg)
  /-- `SHR Vx` (R159). -/
  | shr (x : Reg)
  /-- `SUBN Vx,Vy` (R160). -/
  | subnReg (x y : Reg)
  /-- `SHL Vx` (R161). -/
  | shl (x : Reg)
  /-- `SNE Vx,Vy` (R137). -/
  | sneReg (x y : Reg)
  /-- `LD I,addr` (R170). -/
  | ldI (nnn : Addr)
  /-- `JP V0,addr` (R139). -/
  | jpV0 (nnn : Addr)
  /-- `RND Vx,kk` (R162). -/
  | rnd (x : Reg) (kk : Byte)
  /-- `DRW Vx,Vy,n`; `n` is a count of rows, well-formed below 16 (R124, R83). -/
  | drw (x y : Reg) (n : Nat)
  /-- `SKP Vx` (R180). -/
  | skp (x : Reg)
  /-- `SKNP Vx` (R181). -/
  | sknp (x : Reg)
  /-- `LD Vx,DT` (R182). -/
  | ldVxDt (x : Reg)
  /-- `LD Vx,K` (R183). -/
  | ldVxK (x : Reg)
  /-- `LD DT,Vx` (R185). -/
  | ldDtVx (x : Reg)
  /-- `LD ST,Vx` (R186). -/
  | ldStVx (x : Reg)
  /-- `ADD I,Vx` (R171). -/
  | addI (x : Reg)
  /-- `LD F,Vx` (R172). -/
  | ldF (x : Reg)
  /-- `LD B,Vx` (R173). -/
  | ldB (x : Reg)
  /-- `LD [I],Vx` (R174). -/
  | storeRegs (x : Reg)
  /-- `LD Vx,[I]` (R175). -/
  | loadRegs (x : Reg)
  deriving DecidableEq, Repr

end Sys2Proof
end

