-- ==== Sys2Proof/Decode.lean ====
section
/-! DEFINITION. The decoder of 30_encoding.md R84, total on every word and on any bytes, the opcode map R85 as data, and
the encoder, written from the formats R82 and the map R85. -/

namespace Sys2Proof

/-- Why bytes are no instruction. -/
inductive DecodeError where
  /-- The word is in no row of the opcode map: `InvalidOpcode`, carrying the raw word (R84, R86). Raised by the
  decoder, taken by the cycle as the fault of that name; safe. -/
  | invalidOpcode (w : Word)
  /-- Fewer than two bytes are left: no instruction word (R80). Raised by `decodeBytes` only, never by the cycle,
  which fetches two bytes; safe. -/
  | truncated
  deriving DecidableEq, Repr

/-! ## Fields (R81) -/

/-- `w[15:12]`, the family. -/
def fieldOp (w : Word) : BitVec 4 := w.extractLsb' 12 4

/-- `w[11:8]`, the first register operand. -/
def fieldX (w : Word) : Reg := (w.extractLsb' 8 4).toFin

/-- `w[7:4]`, the second register operand. -/
def fieldY (w : Word) : Reg := (w.extractLsb' 4 4).toFin

/-- `w[3:0]`, the sub-opcode of family 8 or the sprite height. -/
def fieldN (w : Word) : BitVec 4 := w.extractLsb' 0 4

/-- `w[7:0]`, the immediate or the sub-opcode of families 0, E and F. -/
def fieldKK (w : Word) : Byte := w.extractLsb' 0 8

/-- `w[11:0]`, the address. -/
def fieldNNN (w : Word) : Addr := w.extractLsb' 0 12

/-! ## The decoder (R84) -/

/-- Family 0x0: by the low byte (R84; `w[11:8]` is ignored, R87). -/
def decodeFamily0 (w : Word) : Except DecodeError Instr :=
  match fieldKK w with
  | 0xE0#8 => .ok .cls
  | 0xEE#8 => .ok .ret
  | _ => .error (.invalidOpcode w)

/-- Family 0x8: by the low nibble (R84). -/
def decodeFamily8 (w : Word) : Except DecodeError Instr :=
  match fieldN w with
  | 0x0#4 => .ok (.ldReg (fieldX w) (fieldY w))
  | 0x1#4 => .ok (.orReg (fieldX w) (fieldY w))
  | 0x2#4 => .ok (.andReg (fieldX w) (fieldY w))
  | 0x3#4 => .ok (.xorReg (fieldX w) (fieldY w))
  | 0x4#4 => .ok (.addReg (fieldX w) (fieldY w))
  | 0x5#4 => .ok (.subReg (fieldX w) (fieldY w))
  | 0x6#4 => .ok (.shr (fieldX w))
  | 0x7#4 => .ok (.subnReg (fieldX w) (fieldY w))
  | 0xE#4 => .ok (.shl (fieldX w))
  | _ => .error (.invalidOpcode w)

/-- Family 0xE: by the low byte (R84). -/
def decodeFamilyE (w : Word) : Except DecodeError Instr :=
  match fieldKK w with
  | 0x9E#8 => .ok (.skp (fieldX w))
  | 0xA1#8 => .ok (.sknp (fieldX w))
  | _ => .error (.invalidOpcode w)

/-- Family 0xF: by the low byte (R84). -/
def decodeFamilyF (w : Word) : Except DecodeError Instr :=
  match fieldKK w with
  | 0x07#8 => .ok (.ldVxDt (fieldX w))
  | 0x0A#8 => .ok (.ldVxK (fieldX w))
  | 0x15#8 => .ok (.ldDtVx (fieldX w))
  | 0x18#8 => .ok (.ldStVx (fieldX w))
  | 0x1E#8 => .ok (.addI (fieldX w))
  | 0x29#8 => .ok (.ldF (fieldX w))
  | 0x33#8 => .ok (.ldB (fieldX w))
  | 0x55#8 => .ok (.storeRegs (fieldX w))
  | 0x65#8 => .ok (.loadRegs (fieldX w))
  | _ => .error (.invalidOpcode w)

/-- The decode function of R84: a pure function of the word. -/
def decode (w : Word) : Except DecodeError Instr :=
  match fieldOp w with
  | 0x0#4 => decodeFamily0 w
  | 0x1#4 => .ok (.jp (fieldNNN w))
  | 0x2#4 => .ok (.call (fieldNNN w))
  | 0x3#4 => .ok (.seImm (fieldX w) (fieldKK w))
  | 0x4#4 => .ok (.sneImm (fieldX w) (fieldKK w))
  | 0x5#4 => .ok (.seReg (fieldX w) (fieldY w))
  | 0x6#4 => .ok (.ldImm (fieldX w) (fieldKK w))
  | 0x7#4 => .ok (.addImm (fieldX w) (fieldKK w))
  | 0x8#4 => decodeFamily8 w
  | 0x9#4 => .ok (.sneReg (fieldX w) (fieldY w))
  | 0xA#4 => .ok (.ldI (fieldNNN w))
  | 0xB#4 => .ok (.jpV0 (fieldNNN w))
  | 0xC#4 => .ok (.rnd (fieldX w) (fieldKK w))
  | 0xD#4 => .ok (.drw (fieldX w) (fieldY w) (fieldN w).toNat)
  | 0xE#4 => decodeFamilyE w
  | 0xF#4 => decodeFamilyF w
  | _ => .error (.invalidOpcode w)

/-- A word from its two bytes, the byte of the lower address first: big-endian (20_memory.md R54). -/
def wordOfBytes (hi lo : Byte) : Word := hi ++ lo

/-- The bytes of a word as they lie in memory, lower address first (R54). -/
def bytesOfWord (w : Word) : List Byte := [w.extractLsb' 8 8, w.extractLsb' 0 8]

/-- One instruction off the front of any bytes, with the bytes left. -/
def decodeBytes : List Byte → Except DecodeError (Instr × List Byte)
  | hi :: lo :: rest =>
    match decode (wordOfBytes hi lo) with
    | .ok i => .ok (i, rest)
    | .error e => .error e
  | _ => .error .truncated

/-- The word that the opcode table's numbering calls `w`: `nbits` bits of it, the bits above them zero. -/
def tableWord (nbits w : Nat) : Word := BitVec.ofNat 16 (w % 2 ^ nbits)

/-- The instruction the decoder reads from a word numbered as spec/opcode_table.json numbers it, laid out in memory as
R54 says. -/
def decodeTableWord (nbits w : Nat) : Option Instr :=
  match decodeBytes (bytesOfWord (tableWord nbits w)) with
  | .ok (i, _) => some i
  | .error _ => none

/-! ## The opcode map (R85) -/

/-- One row of R85: a word is the instruction iff `w &&& mask = value`. -/
structure OpcodeRow where
  mnemonic : String
  mask     : Word
  value    : Word
  deriving DecidableEq, Repr

/-- R85, rows 1 to 34 in order. -/
def opcodeTable : List OpcodeRow :=
  [⟨"CLS", 0xF0FF, 0x00E0⟩, ⟨"RET", 0xF0FF, 0x00EE⟩, ⟨"JP addr", 0xF000, 0x1000⟩, ⟨"CALL addr", 0xF000, 0x2000⟩,
   ⟨"SE Vx,kk", 0xF000, 0x3000⟩, ⟨"SNE Vx,kk", 0xF000, 0x4000⟩, ⟨"SE Vx,Vy", 0xF000, 0x5000⟩,
   ⟨"LD Vx,kk", 0xF000, 0x6000⟩, ⟨"ADD Vx,kk", 0xF000, 0x7000⟩] ++
  [⟨"LD Vx,Vy", 0xF00F, 0x8000⟩, ⟨"OR Vx,Vy", 0xF00F, 0x8001⟩, ⟨"AND Vx,Vy", 0xF00F, 0x8002⟩,
   ⟨"XOR Vx,Vy", 0xF00F, 0x8003⟩, ⟨"ADD Vx,Vy", 0xF00F, 0x8004⟩, ⟨"SUB Vx,Vy", 0xF00F, 0x8005⟩,
   ⟨"SHR Vx", 0xF00F, 0x8006⟩, ⟨"SUBN Vx,Vy", 0xF00F, 0x8007⟩, ⟨"SHL Vx", 0xF00F, 0x800E⟩] ++
  [⟨"SNE Vx,Vy", 0xF000, 0x9000⟩, ⟨"LD I,addr", 0xF000, 0xA000⟩, ⟨"JP V0,addr", 0xF000, 0xB000⟩,
   ⟨"RND Vx,kk", 0xF000, 0xC000⟩, ⟨"DRW Vx,Vy,n", 0xF000, 0xD000⟩, ⟨"SKP Vx", 0xF0FF, 0xE09E⟩,
   ⟨"SKNP Vx", 0xF0FF, 0xE0A1⟩] ++
  [⟨"LD Vx,DT", 0xF0FF, 0xF007⟩, ⟨"LD Vx,K", 0xF0FF, 0xF00A⟩, ⟨"LD DT,Vx", 0xF0FF, 0xF015⟩,
   ⟨"LD ST,Vx", 0xF0FF, 0xF018⟩, ⟨"ADD I,Vx", 0xF0FF, 0xF01E⟩, ⟨"LD F,Vx", 0xF0FF, 0xF029⟩,
   ⟨"LD B,Vx", 0xF0FF, 0xF033⟩, ⟨"LD [I],Vx", 0xF0FF, 0xF055⟩, ⟨"LD Vx,[I]", 0xF0FF, 0xF065⟩]

/-- The number of the instruction's row in R85, less one. -/
def Instr.rowIndex : Instr → Nat
  | .cls => 0            | .ret => 1          | .jp _ => 2           | .call _ => 3
  | .seImm _ _ => 4      | .sneImm _ _ => 5   | .seReg _ _ => 6      | .ldImm _ _ => 7
  | .addImm _ _ => 8     | .ldReg _ _ => 9    | .orReg _ _ => 10     | .andReg _ _ => 11
  | .xorReg _ _ => 12    | .addReg _ _ => 13  | .subReg _ _ => 14    | .shr _ => 15
  | .subnReg _ _ => 16   | .shl _ => 17       | .sneReg _ _ => 18    | .ldI _ => 19
  | .jpV0 _ => 20        | .rnd _ _ => 21     | .drw _ _ _ => 22     | .skp _ => 23
  | .sknp _ => 24        | .ldVxDt _ => 25    | .ldVxK _ => 26       | .ldDtVx _ => 27
  | .ldStVx _ => 28      | .addI _ => 29      | .ldF _ => 30         | .ldB _ => 31
  | .storeRegs _ => 32   | .loadRegs _ => 33

/-- `w` matches the row. -/
def OpcodeRow.matches (r : OpcodeRow) (w : Word) : Bool := w &&& r.mask == r.value

/-! ## The encoder (R82, R85): the canonical word, ignored bits zero (R87) -/

/-- A register index as a 4-bit field. -/
def regBits (x : Reg) : BitVec 4 := BitVec.ofFin x

/-- Format A: `op`, `nnn`. -/
def formatA (op : BitVec 4) (nnn : Addr) : Word := op ++ nnn

/-- Formats XK, X and Z: `op`, `x`, the low byte. -/
def formatXK (op : BitVec 4) (x : Reg) (kk : Byte) : Word := op ++ regBits x ++ kk

/-- Formats XY and XYN: `op`, `x`, `y`, the low nibble. -/
def formatXYN (op : BitVec 4) (x y : Reg) (n : BitVec 4) : Word := op ++ regBits x ++ regBits y ++ n

/-- The canonical word of an instruction. -/
def encode : Instr → Word
  | .cls => formatXK 0x0 0 0xE0
  | .ret => formatXK 0x0 0 0xEE
  | .jp nnn => formatA 0x1 nnn
  | .call nnn => formatA 0x2 nnn
  | .seImm x kk => formatXK 0x3 x kk
  | .sneImm x kk => formatXK 0x4 x kk
  | .seReg x y => formatXYN 0x5 x y 0x0
  | .ldImm x kk => formatXK 0x6 x kk
  | .addImm x kk => formatXK 0x7 x kk
  | .ldReg x y => formatXYN 0x8 x y 0x0
  | .orReg x y => formatXYN 0x8 x y 0x1
  | .andReg x y => formatXYN 0x8 x y 0x2
  | .xorReg x y => formatXYN 0x8 x y 0x3
  | .addReg x y => formatXYN 0x8 x y 0x4
  | .subReg x y => formatXYN 0x8 x y 0x5
  | .shr x => formatXYN 0x8 x 0 0x6
  | .subnReg x y => formatXYN 0x8 x y 0x7
  | .shl x => formatXYN 0x8 x 0 0xE
  | .sneReg x y => formatXYN 0x9 x y 0x0
  | .ldI nnn => formatA 0xA nnn
  | .jpV0 nnn => formatA 0xB nnn
  | .rnd x kk => formatXK 0xC x kk
  | .drw x y n => formatXYN 0xD x y (BitVec.ofNat 4 n)
  | .skp x => formatXK 0xE x 0x9E
  | .sknp x => formatXK 0xE x 0xA1
  | .ldVxDt x => formatXK 0xF x 0x07
  | .ldVxK x => formatXK 0xF x 0x0A
  | .ldDtVx x => formatXK 0xF x 0x15
  | .ldStVx x => formatXK 0xF x 0x18
  | .addI x => formatXK 0xF x 0x1E
  | .ldF x => formatXK 0xF x 0x29
  | .ldB x => formatXK 0xF x 0x33
  | .storeRegs x => formatXK 0xF x 0x55
  | .loadRegs x => formatXK 0xF x 0x65

end Sys2Proof
end

