-- ==== Sys2Proof/Config.lean ====
section
/-! DEFINITION. What an implementation fixes and the spec leaves open (R4), and the free values: constants with no
body, so that a proof can see no value of them. The record of what the host presents to the core for one step. -/

namespace Sys2Proof

/-- What the host presents to the core for one step (10_state.md R32): how many `tick` events come before the
engine's transition, the sampled `keys`, the `key_event` (absent or one code) and the byte `rnd`.
DESIGN CHOICE, safe (log 6). -/
structure Inputs where
  /-- How many `Tick` transitions fall before the engine's transition (R110). -/
  ticks    : Nat
  /-- `keys[0..15]`, true while the key is down (R32 a). -/
  keys     : Vector Bool 16
  /-- `key_event`: nothing, or the code of a pressed key (R32 b). -/
  keyEvent : Option Key
  /-- `rnd`: the random byte (R32 c). -/
  rnd      : Byte
  deriving DecidableEq, Repr, Inhabited

/-- GLYPH_BASE: OPEN with GLYPH_BASE + 80 ≤ 0x200, so a number at most 432 (R4, D1). Safe (log 1). -/
opaque Config.glyphBase : Fin 433

/-- GLYPH_DATA: the 80 bytes of the glyph table, OPEN (R4, R53, D2). Safe (log 2). -/
opaque Config.glyphData : Vector Byte 80

/-- The inputs of a step for which `State.inputs` lists none: a free value for every count of draws (U3, U5, U6,
D13 to D17). Safe (log 6). -/
opaque Config.inputs : Nat → Inputs

/-- What `LD F,Vx` writes to `I` when `V[x] > 15`: a free value for each draw and each `V[x]` (R172, U1).
Safe (log 8). -/
opaque Config.glyphAddrOutOfRange : Nat → Byte → Word

/-- Whether `SKP Vx` takes the key as down when `V[x] > 15`: a free value (R187, U2). Safe (log 9). -/
opaque Config.skpOutOfRange : Nat → Byte → Bool

/-- Whether `SKNP Vx` takes the key as down when `V[x] > 15`: a free value of its own, as U2 says that the two need
not be complementary. Safe (log 9). -/
opaque Config.sknpOutOfRange : Nat → Byte → Bool

/-- The default GLYPH_DATA of R53, from general knowledge (G5). The machine does not assume it (log 2): it is here
for claims that name the table they speak of. -/
def Config.defaultGlyphData : Vector Byte 80 :=
  #v[0xF0, 0x90, 0x90, 0x90, 0xF0,  0x20, 0x60, 0x20, 0x20, 0x70,
     0xF0, 0x10, 0xF0, 0x80, 0xF0,  0xF0, 0x10, 0xF0, 0x10, 0xF0,
     0x90, 0x90, 0xF0, 0x10, 0x10,  0xF0, 0x80, 0xF0, 0x10, 0xF0,
     0xF0, 0x80, 0xF0, 0x90, 0xF0,  0xF0, 0x10, 0x20, 0x40, 0x40,
     0xF0, 0x90, 0xF0, 0x90, 0xF0,  0xF0, 0x90, 0xF0, 0x10, 0xF0,
     0xF0, 0x90, 0xF0, 0x90, 0x90,  0xE0, 0x90, 0xE0, 0x90, 0xE0,
     0xF0, 0x80, 0x80, 0x80, 0xF0,  0xE0, 0x90, 0x90, 0x90, 0xE0,
     0xF0, 0x80, 0xF0, 0x80, 0xF0,  0xF0, 0x80, 0xF0, 0x80, 0x80]

end Sys2Proof
end

