-- ==== Sys2Proof/Machine/State.lean ====
section
/-! DEFINITION. The state of the machine (10_state.md), why a transition can stop, and the state after reset (R35). -/

namespace Sys2Proof.Machine

/-- The closed list of faults (60_exceptions.md R200, R206). The first four are raised by the engine and TAKEN: they
are recorded in `State.fault` and the next state is HALTED (R208), so `step` never answers them as a fault outcome;
safe (log 7). -/
inductive Fault where
  /-- Raised by the decode step of a cycle (R201). -/
  | invalidOpcode
  /-- Raised by `CALL addr` with sixteen entries held (R202). -/
  | stackOverflow
  /-- Raised by `RET` with no entry held (R203). -/
  | stackUnderflow
  /-- Raised by the fetch, `DRW`, `LD B,Vx`, `LD [I],Vx` and `LD Vx,[I]` (R204, R59). -/
  | memoryOutOfRange
  /-- Answered as a fault outcome by `load` alone, for a program longer than 3584 bytes, and never recorded (R205,
  R235); safe: a rejected load has no successor state (log 19). -/
  | programTooLarge
  deriving DecidableEq, Repr

/-- Why the model gives a transition no meaning. -/
inductive Refusal where
  /-- Raised by an arm of `exec` whose instruction has no meaning yet; safe. No arm is in this case. -/
  | notModelled (mnemonic : String)
  /-- Raised by `load` on a state into which a program was already loaded: R232 gives a second `Load` without a
  `Construct` no meaning; safe (log 19). -/
  | secondLoad
  deriving DecidableEq, Repr

/-- What the engine does at its next transition (R29). -/
inductive Status where
  | running
  /-- Suspended by `LD Vx,K`, to write `V[x]`. -/
  | waitKey (x : Reg)
  | halted
  deriving DecidableEq, Repr

/-- The fault record (R30); `word` is absent when the fetch itself raised the fault. -/
structure FaultRecord where
  kind      : Fault
  word      : Option Word
  pcAtFault : Word
  deriving DecidableEq, Repr

/-- Main memory (R27, 20_memory.md R50): the written bytes as cells in canonical form, addresses strictly rising, no
cell equal to what its address reads as when it is not listed. -/
abbrev Memory := List Host.Cell

/-- The framebuffer (R28): 32 rows of 64 pixels, bit `x` of row `y` is `fb[x, y]` (log 28). -/
abbrev Framebuffer := Vector (BitVec 64) 32

/-- All state. The fields from `ir` on are the model's own (logs 5, 6, 10, 18). -/
structure State where
  /-- `V[0]` to `V[15]` (R20). -/
  v       : Vector Byte 16
  /-- `I` (R22). -/
  i       : Word
  /-- `pc` (R23). -/
  pc      : Word
  /-- `stack[0]` to `stack[15]` (R24). -/
  stack   : Vector Word 16
  /-- `sp`, how many entries are held, 0 to 16 (R24). -/
  sp      : Fin 17
  /-- `DT` (R25). -/
  dt      : Byte
  /-- `ST` (R26). -/
  st      : Byte
  /-- `mem` (R27). -/
  mem     : Memory
  /-- `fb` (R28). -/
  fb      : Framebuffer
  /-- `status` (R29). -/
  status  : Status
  /-- `fault` (R30). -/
  fault   : Option FaultRecord
  /-- `keysnap[0]` to `keysnap[15]` (R31). -/
  keysnap : Vector Bool 16
  /-- The word the current cycle fetched, the `w` of R100 and R208. -/
  ir      : Word
  /-- The `rnd` input sampled for the current cycle (R32 c, R162). -/
  rnd     : Byte
  /-- What the host will present for the coming steps, the next first; when empty it is a free value. -/
  inputs  : List Inputs
  /-- How many free values have been drawn. -/
  draws   : Nat
  /-- A program has been loaded since construction (R232). -/
  loaded  : Bool
  deriving DecidableEq, Repr

/-- The machine right after reset, with no program byte in memory (R35, R231; logs 4, 5, 6, 18, 26). -/
def State.reset : State where
  v       := Vector.replicate 16 0
  i       := 0x0000
  pc      := 0x0200
  stack   := Vector.replicate 16 0
  sp      := 0
  dt      := 0x00
  st      := 0x00
  mem     := []
  fb      := Vector.replicate 32 0
  status  := .running
  fault   := none
  keysnap := Vector.replicate 16 false
  ir      := 0x0000
  rnd     := 0x00
  inputs  := []
  draws   := 0
  loaded  := false

end Sys2Proof.Machine
end

