-- ==== Sys2Proof/Machine/Ops.lean ====
section
/-! DEFINITION. The named operations over memory, registers, call stack, framebuffer, timers and status that every
meaning is built from, and fault entry (60_exceptions.md R208). -/

namespace Sys2Proof.Machine

/-! ## Main memory (20_memory.md) -/

/-- The byte of the glyph table `data` at `base` that lies at `a`, and 0x00 outside the table (R52, R231). -/
def glyphTableByte (base : Nat) (data : Vector Byte 80) (a : Nat) : Byte :=
  if h : base ≤ a ∧ a - base < 80 then data[a - base]'h.2 else 0x00

/-- What a byte that nothing has written reads as: the reset contents of R35, which are 0x00 from 0x200 upward as
GLYPH_BASE + 80 ≤ 0x200 (D1, D3). DESIGN CHOICE of the spec, unsafe (log 3). -/
def Memory.unlisted (a : Nat) : Byte :=
  if 0x200 ≤ a then 0x00 else glyphTableByte Config.glyphBase Config.glyphData a

/-- `mem[a]` (R57: a read has no side effect). -/
def Memory.read : Memory → Nat → Byte
  | [], a => Memory.unlisted a
  | (b, u) :: rest, a => if a = b then u else Memory.read rest a

/-- Put a byte into a list of cells at its place, leaving out a cell that says what an unlisted address says. -/
def Memory.insert (a : Nat) (u : Byte) : Memory → Memory
  | [] => if u = Memory.unlisted a then [] else [(a, u)]
  | (b, w) :: rest =>
    if a < b then (if u = Memory.unlisted a then (b, w) :: rest else (a, u) :: (b, w) :: rest)
    else if a = b then (if u = Memory.unlisted a then rest else (a, u) :: rest)
    else (b, w) :: Memory.insert a u rest

/-- `mem[a] <- u` for an address of the space (R50); every address 0x000 to 0xFFF can be written (R65, log 17). The
meanings test the bound first (R59), so the address is always one of the space. -/
def Memory.write (m : Memory) (a : Nat) (u : Byte) : Memory :=
  if a < 4096 then Memory.insert a u m else m

/-- The bytes at `a`, `a + 1`, … in this order. -/
def Memory.writeBytes (m : Memory) (a : Nat) : List Byte → Memory
  | [] => m
  | u :: us => Memory.writeBytes (Memory.write m a u) (a + 1) us

/-- The `n` bytes from `a` upward, lowest address first. -/
def Memory.readBytes (m : Memory) (a n : Nat) : List Byte :=
  (List.range n).map fun k => m.read (a + k)

/-- The cells have addresses above `lo` that rise strictly and are below 4096, and none says what an unlisted address
says. -/
def Memory.wfFrom : Nat → Memory → Bool
  | _, [] => true
  | lo, (b, u) :: rest => lo ≤ b && b < 4096 && u != Memory.unlisted b && Memory.wfFrom (b + 1) rest

/-- The canonical form of memory (log 3). -/
def Memory.wf (m : Memory) : Bool := Memory.wfFrom 0 m

/-! ## Registers (10_state.md) -/

/-- `V[x]` (R20). -/
def State.reg (s : State) (x : Reg) : Byte := s.v[x]

/-- `V[x] <- u` (R20: no register is hardwired). -/
def State.setReg (s : State) (x : Reg) (u : Byte) : State := { s with v := s.v.set x u }

/-- A flag as the byte 0x00 or 0x01 (43_register_alu.md R150). -/
def flagByte (b : Bool) : Byte := if b then 0x01 else 0x00

/-- `V[x] <- u`, then `VF <- flag`: the flag is written last and wins when `x = 0xF` (40_cycle.md R104, log 13). -/
def State.setWithFlag (s : State) (x : Reg) (u : Byte) (flag : Bool) : State :=
  (s.setReg x u).setReg VF (flagByte flag)

/-- `V[k] <- b`, `V[k + 1] <- b'`, … for the bytes in order. -/
def setRegsFrom (v : Vector Byte 16) (k : Nat) : List Byte → Vector Byte 16
  | [] => v
  | u :: us => setRegsFrom (v.setIfInBounds k u) (k + 1) us

/-- `I <- a` (R22). -/
def State.setI (s : State) (a : Word) : State := { s with i := a }

/-- `pc <- a` (R23). -/
def State.setPc (s : State) (a : Word) : State := { s with pc := a }

/-- A skip: `pc <- (pc + 2) mod 65536` when the condition holds, and nothing else (42_control_flow.md R130). -/
def State.skipIf (s : State) (c : Bool) : State := { s with pc := if c then s.pc + 2 else s.pc }

/-- One free value has been drawn (log 8, log 9). -/
def State.drawn (s : State) : State := { s with draws := s.draws + 1 }

/-! ## The call stack (R24) -/

/-- `Push(v)`, or `none` when sixteen entries are held (R24, log 23). -/
def State.push (s : State) (a : Word) : Option State :=
  if h : s.sp.val < 16 then
    some { s with stack := s.stack.set s.sp.val a, sp := ⟨s.sp.val + 1, by omega⟩ }
  else none

/-- `Pop()`: the newest entry and the state without it, the entry keeping its value; `none` when no entry is held
(R24, log 23). -/
def State.pop (s : State) : Option (Word × State) :=
  if h : 0 < s.sp.val then
    some (s.stack[s.sp.val - 1]'(by omega), { s with sp := ⟨s.sp.val - 1, by omega⟩ })
  else none

/-! ## Fault entry (60_exceptions.md R208) -/

/-- `raise k` with the word to record: `status <- HALTED`, the record filled with the `pc` of now, nothing else. There
is no return from it (R209). -/
def State.raiseWith (s : State) (k : Fault) (word : Option Word) : State :=
  { s with status := .halted, fault := some ⟨k, word, s.pc⟩ }

/-- A fault of decode or execution records the fetched word and the advanced `pc` (R208, log 15). -/
def State.raise (s : State) (k : Fault) : State := s.raiseWith k (some s.ir)

/-- A fault of the fetch records no word and the `pc` that was not advanced (R101, R208, log 15). -/
def State.raiseFetch (s : State) : State := s.raiseWith .memoryOutOfRange none

/-! ## The framebuffer (41_display.md R120) -/

/-- A pixel's column and row, always in range (R122). -/
abbrev Pixel := Fin 64 × Fin 32

/-- `fb[x, y]`. -/
def Framebuffer.get (fb : Framebuffer) (p : Pixel) : Bool := (fb[p.2]).getLsbD p.1

/-- `Clear()`: every pixel is 0. -/
def Framebuffer.clear : Framebuffer := Vector.replicate 32 0

/-- `XorPixel(x, y)`: the pixel is toggled. -/
def Framebuffer.xorPixel (fb : Framebuffer) (p : Pixel) : Framebuffer :=
  fb.set p.2 (fb[p.2] ^^^ BitVec.twoPow 64 p.1)

/-- Column `a + bit` modulo 64 and row `b + row` modulo 32 (R122, R124). -/
def wrapPixel (a b : Byte) (bit row : Nat) : Pixel :=
  (Fin.ofNat 64 (a.toNat + bit), Fin.ofNat 32 (b.toNat + row))

/-- The pixels that row `row` of a sprite toggles, most significant bit of its byte first (R123, R124). -/
def spriteRowPixels (a b : Byte) (row : Nat) (sprite : Byte) : List Pixel :=
  ((List.range 8).filter fun bit => sprite.getLsbD (7 - bit)).map fun bit => wrapPixel a b bit row

/-- The pixels that the rows from `row` on toggle, top row first. -/
def spritePixels (a b : Byte) : Nat → List Byte → List Pixel
  | _, [] => []
  | row, sprite :: rest => spriteRowPixels a b row sprite ++ spritePixels a b (row + 1) rest

/-- Toggle the pixels one after the other; the collision flag becomes true at a pixel that was 1 (R124). -/
def drawPixels : List Pixel → Framebuffer → Bool → Framebuffer × Bool
  | [], fb, collision => (fb, collision)
  | p :: rest, fb, collision => drawPixels rest (fb.xorPixel p) (collision || fb.get p)

/-! ## Timers (60_exceptions.md R213) -/

/-- One timer at a tick: decremented while above 0. -/
def tickTimer (t : Byte) : Byte := if 0 < t.toNat then t - 1 else t

/-- `Tick`: both timers, nothing else. -/
def State.tick (s : State) : State := { s with dt := tickTimer s.dt, st := tickTimer s.st }

/-- One timer after `n` ticks. -/
def tickTimerN : Nat → Byte → Byte
  | 0, t => t
  | n + 1, t => tickTimerN n (tickTimer t)

/-- `n` `Tick` transitions one after the other. -/
def State.ticks (s : State) (n : Nat) : State :=
  { s with dt := tickTimerN n s.dt, st := tickTimerN n s.st }

/-! ## Keys (45_keys_timers.md) -/

/-- `KeyDeliver(k)`, enabled only in WAIT_KEY(x): `V[x] <- k`, `status <- RUNNING`; in any other status the event is
ignored and not remembered (R184, log 22). -/
def State.keyDeliver (s : State) (k : Key) : State :=
  match s.status with
  | .waitKey x => { s.setReg x (BitVec.ofNat 8 k.val) with status := .running }
  | .running => s
  | .halted => s

/-! ## The start of a cycle (40_cycle.md R100) -/

/-- The inputs of the cycle are latched (R107, R32 c). -/
def State.latch (s : State) (keys : Vector Bool 16) (rnd : Byte) : State :=
  { s with keysnap := keys, rnd := rnd }

/-- Fetch: the big-endian word at `pc`, or `none` when `pc + 1 > 0xFFF`; no alignment is tested (R101, R54, R56,
log 11). -/
def State.fetchWord (s : State) : Option Word :=
  if s.pc.toNat + 1 > 0xFFF then none
  else some (wordOfBytes (s.mem.read s.pc.toNat) (s.mem.read (s.pc.toNat + 1)))

/-- The word is in the machine and `pc` is advanced by 2 before decode and dispatch (R102). -/
def State.fetched (s : State) (w : Word) : State := { s with ir := w, pc := s.pc + 2 }

/-! ## What the host presents (log 6) -/

/-- The inputs of the coming step: the head of the list, or a free value when the list is empty. -/
def State.nextInputs (s : State) : Inputs :=
  match s.inputs with
  | inp :: _ => inp
  | [] => Config.inputs s.draws

/-- Those inputs are used up. -/
def State.takeInputs (s : State) : State :=
  match s.inputs with
  | _ :: rest => { s with inputs := rest }
  | [] => { s with draws := s.draws + 1 }

/-- A state that runs at its next step: RUNNING, no fault recorded (log 18). -/
def State.ready (s : State) : State :=
  match s.status with
  | .running => s
  | .waitKey _ => { s with status := .running, fault := none }
  | .halted => { s with status := .running, fault := none }

/-- `s` with a word stored where the next step fetches, as a load from outside would leave it: at the `pc`, or at
0x200 with the `pc` there when no word fits at the `pc` (log 18). -/
def State.placeWord (s : State) (w : Word) : State :=
  let a : Word := if s.pc.toNat + 1 > 0xFFF then 0x0200 else s.pc
  { s.ready with pc := a, mem := s.mem.writeBytes a.toNat (bytesOfWord w) }

end Sys2Proof.Machine
end

