-- ==== Sys2Proof/Machine/Operands.lean ====
section
/-! DEFINITION. The operand forms: immediates widened with zeros (30_encoding.md R83), the one data addressing mode
(44_index_memory.md R176) with its bound test (20_memory.md R59), the glyph address (R172), decimal digits (R173) and
the key test (45_keys_timers.md R187). -/

namespace Sys2Proof.Machine

/-- `zext_16(nnn)` (R83). -/
def addrWord (nnn : Addr) : Word := nnn.setWidth 16

/-- `zext_16(V[x])` (R171, R139). -/
def byteWord (u : Byte) : Word := u.setWidth 16

/-- The effective address `I + k`, a natural number that is not reduced (R176, log 24). -/
def State.addrOf (s : State) (k : Nat) : Nat := s.i.toNat + k

/-- `I + last > 0xFFF`: the last address of the range is outside the space (R59). -/
def State.outOfRange (s : State) (last : Nat) : Bool := s.addrOf last > 0xFFF

/-- `GLYPH_BASE + 5 × d` (R172). -/
def glyphAddr (d : Nat) : Word := BitVec.ofNat 16 (Config.glyphBase + 5 * d)

/-- The hundreds, tens and units digit of a byte, one to a byte (R173). -/
def bcdDigits (a : Byte) : List Byte :=
  [BitVec.ofNat 8 (a.toNat / 100), BitVec.ofNat 8 (a.toNat / 10 % 10), BitVec.ofNat 8 (a.toNat % 10)]

/-- `V[0]` to `V[x]`, inclusive (R174). -/
def State.regsUpTo (s : State) (x : Reg) : List Byte := s.v.toList.take (x.val + 1)

/-- The key test of `SKP` and `SKNP`: the snapshot of the key whose code is in `V[x]`, and a free value drawn from
`free` when `V[x] > 15` (R187, U2, log 9), with the state after the test. -/
def State.keyTest (s : State) (x : Reg) (free : Nat → Byte → Bool) : Bool × State :=
  if h : (s.reg x).toNat < 16 then (s.keysnap[(s.reg x).toNat], s)
  else (free s.draws (s.reg x), s.drawn)

end Sys2Proof.Machine
end

