-- ==== Sys2Proof/Machine/Display.lean ====
section
/-! DEFINITION. The meanings of the display instructions (41_display.md). -/

namespace Sys2Proof.Machine

/-- `CLS` (R121): every pixel 0, nothing else. -/
def execCls (s : State) : Host.Outcome State Fault Refusal :=
  .next { s with fb := Framebuffer.clear }

/-- The draw of R124 past its bound test: the coordinates and the sprite are read first, the pixels are toggled, and
`VF` is written last with the collision flag. -/
def State.drawSprite (s : State) (x y : Reg) (n : Nat) : State :=
  let drawn := drawPixels (spritePixels (s.reg x) (s.reg y) 0 (s.mem.readBytes (s.addrOf 0) n)) s.fb false
  { s with fb := drawn.1 }.setReg VF (flagByte drawn.2)

/-- `DRW Vx,Vy,n` (R124); `n = 0` reads nothing and cannot fault (D28, log 25). -/
def execDrw (x y : Reg) (n : Nat) (s : State) : Host.Outcome State Fault Refusal :=
  .next (if 0 < n && s.outOfRange (n - 1) then s.raise .memoryOutOfRange else s.drawSprite x y n)

end Sys2Proof.Machine
end

