-- ==== Sys2Proof/Machine/IndexMemory.lean ====
section
/-! DEFINITION. The meanings of the index-register and memory instructions (44_index_memory.md). The bound of a range
is tested before anything is read or written (40_cycle.md R105, log 14), and `I` is never changed by a load or store
(R176). -/

namespace Sys2Proof.Machine

/-- `LD I,addr` (R170). -/
def execLdI (nnn : Addr) (s : State) : Host.Outcome State Fault Refusal :=
  .next (s.setI (addrWord nnn))

/-- `ADD I,Vx` (R171): modulo 65536, no flag (D6, log 24). -/
def execAddI (x : Reg) (s : State) : Host.Outcome State Fault Refusal :=
  .next (s.setI (s.i + byteWord (s.reg x)))

/-- `LD F,Vx` (R172): a free value in `I` when `V[x] > 15` (U1, log 8). -/
def execLdF (x : Reg) (s : State) : Host.Outcome State Fault Refusal :=
  .next (if (s.reg x).toNat ≤ 15 then s.setI (glyphAddr (s.reg x).toNat)
    else s.drawn.setI (Config.glyphAddrOutOfRange s.draws (s.reg x)))

/-- Bytes stored from `I` upward (R55). -/
def State.store (s : State) (bytes : List Byte) : State :=
  { s with mem := s.mem.writeBytes (s.addrOf 0) bytes }

/-- `LD B,Vx` (R173). -/
def execLdB (x : Reg) (s : State) : Host.Outcome State Fault Refusal :=
  .next (if s.outOfRange 2 then s.raise .memoryOutOfRange else s.store (bcdDigits (s.reg x)))

/-- `LD [I],Vx` (R174): `V[0]` to `V[x]` inclusive. -/
def execStoreRegs (x : Reg) (s : State) : Host.Outcome State Fault Refusal :=
  .next (if s.outOfRange x.val then s.raise .memoryOutOfRange else s.store (s.regsUpTo x))

/-- `LD Vx,[I]` (R175): `V[0]` to `V[x]` inclusive. -/
def execLoadRegs (x : Reg) (s : State) : Host.Outcome State Fault Refusal :=
  .next (if s.outOfRange x.val then s.raise .memoryOutOfRange
    else { s with v := setRegsFrom s.v 0 (s.mem.readBytes (s.addrOf 0) (x.val + 1)) })

end Sys2Proof.Machine
end

