-- ==== Sys2Proof/Machine/KeysTimers.lean ====
section
/-! DEFINITION. The meanings of the key and timer instructions (45_keys_timers.md); none of them faults. -/

namespace Sys2Proof.Machine

/-- `SKP Vx` (R180). -/
def execSkp (x : Reg) (s : State) : Host.Outcome State Fault Refusal :=
  let test := s.keyTest x Config.skpOutOfRange
  .next (test.2.skipIf test.1)

/-- `SKNP Vx` (R181). -/
def execSknp (x : Reg) (s : State) : Host.Outcome State Fault Refusal :=
  let test := s.keyTest x Config.sknpOutOfRange
  .next (test.2.skipIf (!test.1))

/-- `LD Vx,DT` (R182). -/
def execLdVxDt (x : Reg) (s : State) : Host.Outcome State Fault Refusal :=
  .next (s.setReg x s.dt)

/-- `LD Vx,K` (R183): the engine is suspended until `KeyDeliver` (R184). -/
def execLdVxK (x : Reg) (s : State) : Host.Outcome State Fault Refusal :=
  .next { s with status := .waitKey x }

/-- `LD DT,Vx` (R185). -/
def execLdDtVx (x : Reg) (s : State) : Host.Outcome State Fault Refusal :=
  .next { s with dt := s.reg x }

/-- `LD ST,Vx` (R186). -/
def execLdStVx (x : Reg) (s : State) : Host.Outcome State Fault Refusal :=
  .next { s with st := s.reg x }

end Sys2Proof.Machine
end

