-- ==== Sys2Proof/Machine/Flags.lean ====
section
/-! DEFINITION. The 8-bit ALU and every flag computation (43_register_alu.md R150): results modulo 256, flags from the
exact values. -/

namespace Sys2Proof.Machine

/-- `(a + b) mod 256` (R157). -/
def aluAdd (a b : Byte) : Byte := BitVec.ofNat 8 (a.toNat + b.toNat)

/-- The carry: the unwrapped sum exceeds 255 (R157). -/
def carryFlag (a b : Byte) : Bool := a.toNat + b.toNat > 255

/-- `(a − b) mod 256` (R158). -/
def aluSub (a b : Byte) : Byte := BitVec.ofInt 8 ((a.toNat : Int) - (b.toNat : Int))

/-- The not-borrow: `a ≥ b` before the subtraction (R158). -/
def notBorrowFlag (a b : Byte) : Bool := b.toNat ≤ a.toNat

/-- `a >> 1`, bit 7 becoming 0 (R159). -/
def aluShr (a : Byte) : Byte := a >>> 1

/-- The bit that `a >> 1` shifts out: bit 0 (R159). -/
def shrFlag (a : Byte) : Bool := a.getLsbD 0

/-- `(a << 1) mod 256`, bit 0 becoming 0 (R161). -/
def aluShl (a : Byte) : Byte := a <<< 1

/-- The bit that `a << 1` shifts out: bit 7 (R161). -/
def shlFlag (a : Byte) : Bool := a.getLsbD 7

end Sys2Proof.Machine
end

