-- ==== Sys2Proof/Machine/RegisterAlu.lean ====
section
/-! DEFINITION. The meanings of the register, arithmetic-logic and random instructions (43_register_alu.md); none of
them faults. -/

namespace Sys2Proof.Machine

/-- `LD Vx,kk` (R151). -/
def execLdImm (x : Reg) (kk : Byte) (s : State) : Host.Outcome State Fault Refusal :=
  .next (s.setReg x kk)

/-- `ADD Vx,kk` (R152): no flag. -/
def execAddImm (x : Reg) (kk : Byte) (s : State) : Host.Outcome State Fault Refusal :=
  .next (s.setReg x (aluAdd (s.reg x) kk))

/-- `LD Vx,Vy` (R153). -/
def execLdReg (x y : Reg) (s : State) : Host.Outcome State Fault Refusal :=
  .next (s.setReg x (s.reg y))

/-- `OR Vx,Vy` (R154): `VF` is not touched. -/
def execOrReg (x y : Reg) (s : State) : Host.Outcome State Fault Refusal :=
  .next (s.setReg x (s.reg x ||| s.reg y))

/-- `AND Vx,Vy` (R155). -/
def execAndReg (x y : Reg) (s : State) : Host.Outcome State Fault Refusal :=
  .next (s.setReg x (s.reg x &&& s.reg y))

/-- `XOR Vx,Vy` (R156). -/
def execXorReg (x y : Reg) (s : State) : Host.Outcome State Fault Refusal :=
  .next (s.setReg x (s.reg x ^^^ s.reg y))

/-- `ADD Vx,Vy` (R157): `VF` is the carry. -/
def execAddReg (x y : Reg) (s : State) : Host.Outcome State Fault Refusal :=
  .next (s.setWithFlag x (aluAdd (s.reg x) (s.reg y)) (carryFlag (s.reg x) (s.reg y)))

/-- `SUB Vx,Vy` (R158): `VF` is the not-borrow of `V[x] − V[y]`. -/
def execSubReg (x y : Reg) (s : State) : Host.Outcome State Fault Refusal :=
  .next (s.setWithFlag x (aluSub (s.reg x) (s.reg y)) (notBorrowFlag (s.reg x) (s.reg y)))

/-- `SHR Vx` (R159): `V[y]` plays no part (D12, log 25). -/
def execShr (x : Reg) (s : State) : Host.Outcome State Fault Refusal :=
  .next (s.setWithFlag x (aluShr (s.reg x)) (shrFlag (s.reg x)))

/-- `SUBN Vx,Vy` (R160): `VF` is the not-borrow of `V[y] − V[x]`. -/
def execSubnReg (x y : Reg) (s : State) : Host.Outcome State Fault Refusal :=
  .next (s.setWithFlag x (aluSub (s.reg y) (s.reg x)) (notBorrowFlag (s.reg y) (s.reg x)))

/-- `SHL Vx` (R161): `V[y]` plays no part (D12, log 25). -/
def execShl (x : Reg) (s : State) : Host.Outcome State Fault Refusal :=
  .next (s.setWithFlag x (aluShl (s.reg x)) (shlFlag (s.reg x)))

/-- `RND Vx,kk` (R162): the random byte of this cycle, masked (log 10). -/
def execRnd (x : Reg) (kk : Byte) (s : State) : Host.Outcome State Fault Refusal :=
  .next (s.setReg x (s.rnd &&& kk))

end Sys2Proof.Machine
end

