-- ==== Sys2Proof/Machine/Cycle.lean ====
section
/-! DEFINITION. The engine's transitions: `Step` (40_cycle.md R100) and, while a key is awaited, `KeyDeliver`
(45_keys_timers.md R184), after the ticks that fall before them (R110). -/

namespace Sys2Proof.Machine

/-- What follows the fetch: decode, then the rule of the operation, or the fault of an invalid word (R100, R103,
R201). -/
def dispatch (w : Word) (s : State) : Host.Outcome State Fault Refusal :=
  match decode w with
  | .ok i => exec i s
  | .error _ => .next (s.raise .invalidOpcode)

/-- `Step(keys, rnd)` in RUNNING (R100). -/
def cycle (keys : Vector Bool 16) (rnd : Byte) (s : State) : Host.Outcome State Fault Refusal :=
  match (s.latch keys rnd).fetchWord with
  | none => .next (s.latch keys rnd).raiseFetch
  | some w => dispatch w ((s.latch keys rnd).fetched w)

/-- `Step(keys, rnd)` in every status: in WAIT_KEY and HALTED it changes nothing (R100, D32, log 7). -/
def stepTransition (keys : Vector Bool 16) (rnd : Byte) (s : State) : Host.Outcome State Fault Refusal :=
  match s.status with
  | .running => cycle keys rnd s
  | .waitKey _ => .next s
  | .halted => .next s

/-- The engine's transition under the presented inputs: `KeyDeliver` when a key is awaited and an event is there,
`Step` otherwise (R100, R184, log 22). -/
def engineTransition (inp : Inputs) (s : State) : Host.Outcome State Fault Refusal :=
  match s.status with
  | .running => stepTransition inp.keys inp.rnd s
  | .halted => stepTransition inp.keys inp.rnd s
  | .waitKey _ =>
    match inp.keyEvent with
    | some k => .next (s.keyDeliver k)
    | none => stepTransition inp.keys inp.rnd s

/-- The ticks that come first, then the engine's transition (R110, log 6). -/
def engine (inp : Inputs) (s : State) : Host.Outcome State Fault Refusal :=
  engineTransition inp (s.ticks inp.ticks)

end Sys2Proof.Machine
end

