-- ==== Sys2Proof/Machine/Step.lean ====
section
/-! DEFINITION. One step of the machine, and a state whose next step runs a given word. -/

namespace Sys2Proof.Machine

/-- One step: the inputs of the step are taken, the ticks among them come first, then the engine's one transition
(40_cycle.md R110; log 6). -/
def step (s : State) : Host.Outcome State Fault Refusal := engine s.nextInputs s.takeInputs

/-- `s` with the instruction that spec/opcode_table.json numbers `w` stored where `step` fetches its next
instruction (log 18). -/
def State.withFetchWord (s : State) (nbits w : Nat) : State := s.placeWord (tableWord nbits w)

end Sys2Proof.Machine
end

