-- ==== Sys2Proof/Machine/Outputs.lean ====
section
/-! DEFINITION. What the host can read (10_state.md R33); no output changes the state. -/

namespace Sys2Proof.Machine

/-- `GetPixel(x, y)`, on the 64 × 32 coordinates only (R33 a, U7, log 29). -/
def getPixel (s : State) (x : Fin 64) (y : Fin 32) : Bool := s.fb.get (x, y)

/-- `sound_active`, the boolean `ST > 0` (R26, R33 b, R214). -/
def soundActive (s : State) : Bool := s.st.toNat > 0

/-- The result of a step request (R33 d). -/
inductive Report where
  | success
  | waiting
  | fault (r : Option FaultRecord)
  deriving DecidableEq, Repr

/-- What the host is told after a step: success, waiting, or the recorded fault, again at every step in HALTED (R100,
D32). -/
def State.report (s : State) : Report :=
  match s.status with
  | .running => .success
  | .waitKey _ => .waiting
  | .halted => .fault s.fault

end Sys2Proof.Machine
end

