-- ==== Sys2Proof/Machine/Reset.lean ====
section
/-! DEFINITION. The host's two reset operations, `Construct` and `Load` (70_reset_and_hazards.md). -/

namespace Sys2Proof.Machine

/-- `Construct` (R231): every piece of state at its reset value, whatever it was; what the host will present goes on
(log 6). -/
def State.construct (s : State) : State := { State.reset with inputs := s.inputs, draws := s.draws }

/-- The accepted `Load` (R234): the bytes verbatim from 0x200 upward, the CPU state at its reset values, memory
outside the program and the framebuffer as they were. -/
def State.loadProgram (s : State) (bytes : List Byte) : State :=
  { s with
    mem := s.mem.writeBytes 0x200 bytes
    v := State.reset.v, i := 0x0000, pc := 0x0200, sp := 0, dt := 0x00, st := 0x00
    status := .running, fault := none, loaded := true }

/-- `Load(bytes)`: refused when a program was loaded since the last `Construct` (R232), rejected with
`ProgramTooLarge` when longer than 3584 bytes (R235), else accepted (R234; log 19). The status is not tested: a first
`Load` is accepted, and returns the machine to RUNNING, also where steps taken before any `Load` have halted it, though
R209 names the full reset as the only exit from HALTED. DESIGN CHOICE, unsafe (log 30). -/
def load (bytes : List Byte) (s : State) : Host.Outcome State Fault Refusal :=
  if s.loaded then .refused .secondLoad
  else if 3584 < bytes.length then .fault .programTooLarge
  else .next (s.loadProgram bytes)

end Sys2Proof.Machine
end

