-- ==== Sys2Proof/Machine/Transitions.lean ====
section
/-! DEFINITION. The five transitions of the machine, each atomic (40_cycle.md R110). `step` is made of the first three;
claims about everything that can happen to the state are claims about `transition`. -/

namespace Sys2Proof.Machine

/-- The transitions of R110 with their arguments. -/
inductive Transition where
  /-- `Step(keys, rnd)` (R100). -/
  | step (keys : Vector Bool 16) (rnd : Byte)
  /-- `KeyDeliver(k)` (R184). -/
  | keyDeliver (k : Key)
  /-- `Tick` (R213). -/
  | tick
  /-- `Construct` (R231). -/
  | construct
  /-- `Load(bytes)` (R234). -/
  | load (bytes : List Byte)
  deriving DecidableEq, Repr

/-- What one transition does. -/
def transition : Transition → State → Host.Outcome State Fault Refusal
  | .step keys rnd, s => stepTransition keys rnd s
  | .keyDeliver k, s => .next (s.keyDeliver k)
  | .tick, s => .next s.tick
  | .construct, s => .next s.construct
  | .load bytes, s => Sys2Proof.Machine.load bytes s

end Sys2Proof.Machine
end

