-- ==== Sys2Proof/Safety.lean ====
section
/-! DEFINITION. What counts as a safe run, when a run has ended, and the invariant of the machine, in the terms claims
use. -/

namespace Sys2Proof.Machine

/-- A state of a safe run: a halted state is never a final state of a successful run (60_exceptions.md R222). -/
abbrev State.Safe (s : State) : Prop := s.status ≠ .halted

/-- END_OF_RUN as the spec's examples define it: RUNNING, and the word at `pc` is `1nnn` with `nnn = pc` (R238, D26,
log 20). -/
def State.endOfRun (s : State) : Bool :=
  s.status == .running && s.fetchWord == some (encode (.jp (s.pc.setWidth 12)))

/-! ## The invariant -/

/-- `pc` never exceeds 0x10FE, the largest value any rule can put there, and no held return address exceeds 0x1000
(10_state.md R23, 42_control_flow.md R131). -/
abbrev State.PcBounded (s : State) : Prop :=
  s.pc.toNat ≤ 0x10FE ∧ ∀ j : Fin 16, j.val < s.sp.val → (s.stack[j]).toNat ≤ 0x1000

/-- The fault that an instruction's own rule raises in a state, if its condition holds there (60_exceptions.md R202,
R203, R204, R207). -/
def executeFault (s : State) : Instr → Option Fault
  | .ret => if s.sp == 0 then some .stackUnderflow else none
  | .call _ => if s.sp == 16 then some .stackOverflow else none
  | .drw _ _ n => if 0 < n && s.outOfRange (n - 1) then some .memoryOutOfRange else none
  | .ldB _ => if s.outOfRange 2 then some .memoryOutOfRange else none
  | .storeRegs x | .loadRegs x => if s.outOfRange x.val then some .memoryOutOfRange else none
  | .cls | .jp _ | .ldI _ | .jpV0 _ => none
  | .seImm _ _ | .sneImm _ _ | .ldImm _ _ | .addImm _ _ | .rnd _ _ => none
  | .seReg _ _ | .sneReg _ _ | .ldReg _ _ | .orReg _ _ | .andReg _ _ | .xorReg _ _ => none
  | .addReg _ _ | .subReg _ _ | .subnReg _ _ | .shr _ | .shl _ => none
  | .skp _ | .sknp _ | .ldVxDt _ | .ldVxK _ | .ldDtVx _ | .ldStVx _ | .addI _ | .ldF _ => none

/-- What the record says of a halted state is the case (60_exceptions.md R206): the fault is one that the recorded
word raises, and its condition holds of the frozen state; with no word, it is the fault of a fetch at a `pc` with no
two bytes. -/
def FaultRecord.accounts (r : FaultRecord) (s : State) : Bool :=
  match r.word with
  | none => r.kind == .memoryOutOfRange && 0xFFF ≤ r.pcAtFault.toNat
  | some w =>
    match decode w with
    | .error _ => r.kind == .invalidOpcode
    | .ok i => executeFault s i == some r.kind

/-- `w` is `LD Vx,K` for this `x`. -/
def awaitsKey (w : Word) (x : Reg) : Bool :=
  match decode w with
  | .ok i => i == .ldVxK x
  | .error _ => false

/-- A fault is recorded exactly in HALTED, it accounts for the halt and its `pc_at_fault` is the `pc`; WAIT_KEY(x) is
entered only by `LD Vx,K` (R29, R30, R206, R208, R219). -/
def State.statusAccounted (s : State) : Bool :=
  match s.status, s.fault with
  | .running, none => true
  | .waitKey x, none => awaitsKey s.ir x
  | .halted, some r => r.pcAtFault == s.pc && r.accounts s
  | _, _ => false

/-- The invariant of the machine: memory in canonical form, `pc` and return addresses bounded, the status accounted
for. -/
abbrev State.Inv (s : State) : Prop :=
  s.mem.wf = true ∧ s.PcBounded ∧ s.statusAccounted = true

end Sys2Proof.Machine
end

