-- ==== Sys2Proof/Certificates/Slice0/Obligations.lean ====
section
/-! DEFINITION. The statements for the provers, from the numbered rules of spec/. Each docstring names the rule.
`t = { s with v := t.v }` says that `t` differs from `s` in the V registers at most, and so on: every field not named is
unchanged, memory with all its bytes, the call stack, the timers, the status and the fault record included. In `exec`
the `pc` is the advanced one (R102) and `ir` the fetched word. The opcode numbers are those of R85; for the rows that R93
marks as not stated in the source they are the spec's general knowledge (PRESUMED, log 16). A word D<n> is a decision of
92_eei_decisions.md, and log n an entry of notes/assumptions/. -/

open Sys2Proof Sys2Proof.Machine

/-! ## Encoding (30_encoding.md) -/

/-- R81, R82, R83: the decoder reads back every operand that the encoder lays out, at every value the field admits. -/
def Obligations.DecodeEncodeRoundTrip : Prop :=
  ∀ i : Instr, i.WellFormed → decode (encode i) = .ok i

/-- R85: a word is the instruction of a row iff it has the row's bits under the row's mask, and no word has two rows
(the spec derives this from R84; log 16). -/
def Obligations.DecoderAgreesWithOpcodeMap : Prop :=
  opcodeTable.length = 34 ∧
  (∀ (w : Word) (k : Nat) (r : OpcodeRow), opcodeTable[k]? = some r →
    (w &&& r.mask = r.value ↔ ∃ i, decode w = .ok i ∧ i.rowIndex = k)) ∧
  ∀ (w : Word) (k k' : Nat) (r r' : OpcodeRow), opcodeTable[k]? = some r → opcodeTable[k']? = some r' →
    w &&& r.mask = r.value → w &&& r'.mask = r'.value → k = k'

/-- R86: exactly which words are invalid, and that the decoder then carries the word (the spec derives the list from
R84). -/
def Obligations.InvalidWordsAreThoseOfR86 : Prop :=
  ∀ w : Word, decode w = .error (.invalidOpcode w) ↔
    (w.toNat / 0x1000 = 0x0 ∧ w.toNat % 0x100 ≠ 0xE0 ∧ w.toNat % 0x100 ≠ 0xEE) ∨
    (w.toNat / 0x1000 = 0x8 ∧ w.toNat % 0x10 ∈ [0x8, 0x9, 0xA, 0xB, 0xC, 0xD, 0xF]) ∨
    (w.toNat / 0x1000 = 0xE ∧ w.toNat % 0x100 ≠ 0x9E ∧ w.toNat % 0x100 ≠ 0xA1) ∨
    (w.toNat / 0x1000 = 0xF ∧
      w.toNat % 0x100 ∉ [0x07, 0x0A, 0x15, 0x18, 0x1E, 0x29, 0x33, 0x55, 0x65])

/-- R84: decoding is total and sound: a well-formed instruction, or the error that carries the word. -/
def Obligations.DecoderYieldsWellFormedOrInvalid : Prop :=
  ∀ w : Word, (∃ i : Instr, decode w = .ok i ∧ i.WellFormed) ∨ decode w = .error (.invalidOpcode w)

/-- R87: (a) `w[11:8]` in CLS and RET, (b) `w[3:0]` in families 5 and 9, (c) `w[7:4]` in SHR and SHL do not affect
decoding. The reading is the spec's decision D11 (log 12). -/
def Obligations.IgnoredBitsDoNotAffectDecoding : Prop :=
  (∀ w : Word, w &&& 0xF0FF = 0x00E0 → decode w = .ok .cls) ∧
  (∀ w : Word, w &&& 0xF0FF = 0x00EE → decode w = .ok .ret) ∧
  (∀ w w' : Word, w &&& 0xFFF0 = w' &&& 0xFFF0 → (w &&& 0xF000 = 0x5000 ∨ w &&& 0xF000 = 0x9000) →
    decode w = decode w') ∧
  (∀ w w' : Word, w &&& 0xFF0F = w' &&& 0xFF0F → (w &&& 0xF00F = 0x8006 ∨ w &&& 0xF00F = 0x800E) →
    decode w = decode w')

/-- R81, R85: a few words written out from the spec's encodings, from each section of the instruction set (log 16). -/
def Obligations.SampleWordsDecode : Prop :=
  decode 0x6005 = .ok (.ldImm 0 5) ∧ decode 0x6103 = .ok (.ldImm 1 3) ∧ decode 0x8014 = .ok (.addReg 0 1) ∧
  decode 0xD125 = .ok (.drw 1 2 5) ∧ decode 0x2ABC = .ok (.call 0xABC) ∧ decode 0xF365 = .ok (.loadRegs 3) ∧
  decode 0xE29E = .ok (.skp 2) ∧ decode 0x0000 = .error (.invalidOpcode 0x0000)

/-! ## The cycle (40_cycle.md) -/

/-- R100: the `Step` transition in every status: nothing in HALTED (which reports the recorded fault) and WAIT_KEY; in
RUNNING the fetch fault, the invalid word, or the decoded instruction, after the key snapshot, the fetch and the
advance of `pc`. That HALTED reports again is D32 (log 7), the recorded `pc` is D10 (log 15). -/
def Obligations.StepTransitionIsTheCycle : Prop :=
  ∀ (keys : Vector Bool 16) (r : Byte) (s : State),
    (s.status = .halted → stepTransition keys r s = .next s ∧ s.report = .fault s.fault) ∧
    (∀ x, s.status = .waitKey x → stepTransition keys r s = .next s ∧ s.report = .waiting) ∧
    (s.status = .running → s.pc.toNat + 1 > 0xFFF →
      stepTransition keys r s = .next { s with
        keysnap := keys, rnd := r, status := .halted, fault := some ⟨.memoryOutOfRange, none, s.pc⟩ }) ∧
    (s.status = .running → s.pc.toNat + 1 ≤ 0xFFF →
      ∀ w : Word, w = s.mem.read s.pc.toNat ++ s.mem.read (s.pc.toNat + 1) →
        (∀ i, decode w = .ok i →
          stepTransition keys r s = exec i { s with keysnap := keys, rnd := r, ir := w, pc := s.pc + 2 }) ∧
        (∀ e, decode w = .error e →
          stepTransition keys r s = .next { s with
            keysnap := keys, rnd := r, ir := w, pc := s.pc + 2, status := .halted,
            fault := some ⟨.invalidOpcode, some w, s.pc + 2⟩ }))

/-- R103: in RUNNING, with two bytes at `pc`, the decoded operation is applied, once, to the state in which the inputs
are latched, the big-endian word (R54) is in `ir` and `pc` is advanced (R102). -/
def Obligations.DecodedOperationIsAppliedOnce : Prop :=
  ∀ (keys : Vector Bool 16) (r : Byte) (s : State) (i : Instr), s.status = .running → s.pc.toNat + 1 ≤ 0xFFF →
    decode (s.mem.read s.pc.toNat ++ s.mem.read (s.pc.toNat + 1)) = .ok i →
    transition (.step keys r) s = exec i { s with
      keysnap := keys, rnd := r, ir := s.mem.read s.pc.toNat ++ s.mem.read (s.pc.toNat + 1), pc := s.pc + 2 }

/-- R102, R103, R110 (the ticks within a step are the model's form of R110, log 6): when the bytes at `pc` decode (to a
well-formed instruction, DecoderYieldsWellFormedOrInvalid), a step is `exec` of that instruction on the state after the ticks that come first, with the inputs latched, the word in
`ir` and `pc` advanced by 2. -/
def Obligations.StepRunsDecodedInstruction : Prop :=
  ∀ (s : State) (inp : Inputs) (i : Instr), s.nextInputs = inp → s.status = .running →
    s.pc.toNat + 1 ≤ 0xFFF →
    decode (s.mem.read s.pc.toNat ++ s.mem.read (s.pc.toNat + 1)) = .ok i →
    step s = exec i { s.takeInputs.ticks inp.ticks with
      keysnap := inp.keys, rnd := inp.rnd, ir := s.mem.read s.pc.toNat ++ s.mem.read (s.pc.toNat + 1),
      pc := s.pc + 2 }

/-- R110 (the model's form of it, log 6): with the inputs chosen in `State.inputs`, a step is exactly the transitions
chosen: any number of `Tick`s, then `Step`, or `KeyDeliver` when a key is awaited and an event is there. So every
interleaving of the three is a run. -/
def Obligations.ChosenInputsGiveChosenTransitions : Prop :=
  ∀ (s : State) (n : Nat) (keys : Vector Bool 16) (ev : Option Key) (r : Byte) (rest : List Inputs),
    step { s with inputs := ⟨n + 1, keys, ev, r⟩ :: rest } =
      step { s.tick with inputs := ⟨n, keys, ev, r⟩ :: rest } ∧
    (ev = none ∨ (∀ x, s.status ≠ .waitKey x) →
      step { s with inputs := ⟨0, keys, ev, r⟩ :: rest } = transition (.step keys r) { s with inputs := rest }) ∧
    (∀ k x, ev = some k → s.status = .waitKey x →
      step { s with inputs := ⟨0, keys, ev, r⟩ :: rest } = transition (.keyDeliver k) { s with inputs := rest })

/-- R200, R208 with the model's log 7: no step stops, whatever the state: a fault is a next state. -/
def Obligations.EveryStepAnswersANextState : Prop :=
  ∀ s : State, ∃ t, step s = .next t

/-- R105: a faulting instruction changes nothing but `status` and `fault`, which records a kind, the fetched word and
the advanced `pc`. The all-or-nothing reading is the spec's decision D9 (log 14). -/
def Obligations.FaultingInstructionChangesNothingElse : Prop :=
  ∀ (i : Instr) (s t : State), s.status ≠ .halted → exec i s = .next t → t.status = .halted →
    ∃ k, t = { s with status := .halted, fault := some ⟨k, some s.ir, s.pc⟩ }

/-- R202, R203: `CALL` faults iff sixteen entries are held, `RET` iff none is, and nothing is pushed or popped then. -/
def Obligations.StackFaultsExactlyWhen : Prop :=
  ∀ (nnn : Addr) (s : State), s.status ≠ .halted → ∃ t u, exec (.call nnn) s = .next t ∧ exec .ret s = .next u ∧
    (t.status = .halted ↔ s.sp.val = 16) ∧ (u.status = .halted ↔ s.sp.val = 0) ∧
    (t.status = .halted → t.sp = s.sp ∧ t.stack = s.stack ∧ ∃ r, t.fault = some r ∧ r.kind = .stackOverflow) ∧
    (u.status = .halted → u.sp = s.sp ∧ u.stack = s.stack ∧ ∃ r, u.fault = some r ∧ r.kind = .stackUnderflow)

/-- R207, R204, R202, R203, R59: which fault an instruction can raise, and exactly when. That addresses are natural
numbers that are not reduced is D7 (log 24), that `n = 0` does not fault is D28 (log 25). -/
def Obligations.ExecuteTimeFaultsExactlyWhen : Prop :=
  ∀ (i : Instr) (s t : State), s.status ≠ .halted → exec i s = .next t →
    (t.status = .halted ↔
      (i = .ret ∧ s.sp.val = 0) ∨ (∃ nnn, i = .call nnn ∧ s.sp.val = 16) ∨
      (∃ x y n, i = .drw x y n ∧ 0 < n ∧ s.i.toNat + n - 1 > 0xFFF) ∨
      (∃ x, i = .ldB x ∧ s.i.toNat + 2 > 0xFFF) ∨
      (∃ x, (i = .storeRegs x ∨ i = .loadRegs x) ∧ s.i.toNat + x.val > 0xFFF)) ∧
    (∀ r, t.status = .halted → t.fault = some r →
      r.kind = match i with
        | .ret => .stackUnderflow
        | .call _ => .stackOverflow
        | _ => .memoryOutOfRange)

/-- R106: the frame rule over all instructions, `VF` (R21), `I`, the call stack, the framebuffer, memory byte by byte and
the timers. -/
def Obligations.FrameRuleOverAllInstructions : Prop :=
  ∀ (i : Instr) (s t : State), exec i s = .next t →
    (t.i ≠ s.i → (∃ nnn, i = .ldI nnn) ∨ (∃ x, i = .addI x ∨ i = .ldF x)) ∧
    (t.sp ≠ s.sp ∨ t.stack ≠ s.stack → i = .ret ∨ ∃ nnn, i = .call nnn) ∧
    (t.fb ≠ s.fb → i = .cls ∨ ∃ x y n, i = .drw x y n) ∧
    ((∃ a, t.mem.read a ≠ s.mem.read a) → ∃ x, i = .ldB x ∨ i = .storeRegs x) ∧
    (t.dt ≠ s.dt → ∃ x, i = .ldDtVx x) ∧ (t.st ≠ s.st → ∃ x, i = .ldStVx x) ∧
    (t.reg VF ≠ s.reg VF →
      (∃ x y, i = .addReg x y ∨ i = .subReg x y ∨ i = .subnReg x y ∨ i = .shr x ∨ i = .shl x ∨
        ∃ n, i = .drw x y n) ∨
      (∃ kk, i = .ldImm VF kk ∨ i = .addImm VF kk ∨ i = .rnd VF kk) ∨
      (∃ y, i = .ldReg VF y ∨ i = .orReg VF y ∨ i = .andReg VF y ∨ i = .xorReg VF y) ∨
      i = .ldVxDt VF ∨ i = .loadRegs VF) ∧
    t.keysnap = s.keysnap ∧ t.ir = s.ir ∧ t.rnd = s.rnd ∧ t.inputs = s.inputs ∧ t.loaded = s.loaded

/-- R21: each of the six flag instructions that completes leaves 0 or 1 in `VF`. -/
def Obligations.FlagInstructionsLeaveZeroOrOne : Prop :=
  ∀ (i : Instr) (s t : State), exec i s = .next t → s.status ≠ .halted → t.status ≠ .halted →
    (∃ x y, i = .addReg x y ∨ i = .subReg x y ∨ i = .subnReg x y ∨ i = .shr x ∨ i = .shl x ∨
      ∃ n, i = .drw x y n) →
    t.reg VF = 0 ∨ t.reg VF = 1

/-! ## Display (41_display.md) -/

/-- R121; that `w[11:8]` is ignored is D11 (log 12). -/
def Obligations.ClsClearsEveryPixel : Prop :=
  (∀ w : Word, w &&& 0xF0FF = 0x00E0 → decode w = .ok .cls) ∧
  ∀ s : State, ∃ t, exec .cls s = .next t ∧ (∀ p, t.fb.get p = false) ∧ t = { s with fb := t.fb }

/-- R124: which pixels are toggled, the collision flag, the bound test, and that nothing else changes. The old `VF` as a
coordinate is D8 (log 13), the case `n = 0` D28 (log 25), a fault that draws nothing D9 (log 14). -/
def Obligations.DrwTogglesTheSpritePixels : Prop :=
  (∀ w : Word, w &&& 0xF000 = 0xD000 → decode w = .ok (.drw (fieldX w) (fieldY w) (fieldN w).toNat)) ∧
  ∀ (x y : Reg) (n : Nat) (s : State), n < 16 →
    (n = 0 ∨ s.i.toNat + n - 1 ≤ 0xFFF → ∃ t, exec (.drw x y n) s = .next t ∧
      (∀ p : Pixel, t.fb.get p ≠ s.fb.get p ↔
        ∃ row < n, ∃ bit < 8, (s.mem.read (s.i.toNat + row)).getLsbD (7 - bit) = true ∧
          p.1.val = ((s.reg x).toNat + bit) % 64 ∧ p.2.val = ((s.reg y).toNat + row) % 32) ∧
      ((∃ p : Pixel, s.fb.get p = true ∧ t.fb.get p = false) → t.reg VF = 1) ∧
      ((∀ p : Pixel, s.fb.get p = true → t.fb.get p = true) → t.reg VF = 0) ∧
      (∀ z, z ≠ VF → t.reg z = s.reg z) ∧ t = { s with v := t.v, fb := t.fb }) ∧
    (0 < n → s.i.toNat + n - 1 > 0xFFF → exec (.drw x y n) s =
      .next { s with status := .halted, fault := some ⟨.memoryOutOfRange, some s.ir, s.pc⟩ })

/-- R124 with 90_conflicts.md C7: drawing the same sprite twice restores every pixel (coordinates not in `VF`, which the
first draw writes). -/
def Obligations.DrawingTwiceRestoresTheFramebuffer : Prop :=
  ∀ (x y : Reg) (n : Nat) (s : State), n < 16 → x ≠ VF → y ≠ VF → (n = 0 ∨ s.i.toNat + n - 1 ≤ 0xFFF) →
    ∃ t u, exec (.drw x y n) s = .next t ∧ exec (.drw x y n) t = .next u ∧ u.fb = s.fb

/-! ## Control flow (42_control_flow.md) -/

/-- R131; a return address that a run can hold is at most 0x1000. That `w[11:8]` is ignored is D11 (log 12). -/
def Obligations.RetPopsTheReturnAddress : Prop :=
  (∀ w : Word, w &&& 0xF0FF = 0x00EE → decode w = .ok .ret) ∧
  ∀ s : State,
    (0 < s.sp.val → ∃ t, exec .ret s = .next t ∧ t.sp.val = s.sp.val - 1 ∧
      s.stack[s.sp.val - 1]? = some t.pc ∧ t = { s with sp := t.sp, pc := t.pc } ∧
      (s.PcBounded → t.pc.toNat ≤ 0x1000)) ∧
    (s.sp.val = 0 → exec .ret s =
      .next { s with status := .halted, fault := some ⟨.stackUnderflow, some s.ir, s.pc⟩ })

/-- R132. -/
def Obligations.JpSetsPc : Prop :=
  (∀ w : Word, w &&& 0xF000 = 0x1000 → decode w = .ok (.jp (fieldNNN w))) ∧
  ∀ (nnn : Addr) (s : State), ∃ t, exec (.jp nnn) s = .next t ∧ t.pc.toNat = nnn.toNat ∧ t = { s with pc := t.pc }

/-- R133; which slot is written is D18 (log 23). -/
def Obligations.CallPushesTheAdvancedPc : Prop :=
  (∀ w : Word, w &&& 0xF000 = 0x2000 → decode w = .ok (.call (fieldNNN w))) ∧
  ∀ (nnn : Addr) (s : State),
    (s.sp.val < 16 → ∃ t, exec (.call nnn) s = .next t ∧ t.sp.val = s.sp.val + 1 ∧
      t.stack[s.sp.val]? = some s.pc ∧ (∀ j : Fin 16, j.val ≠ s.sp.val → t.stack[j] = s.stack[j]) ∧
      t.pc.toNat = nnn.toNat ∧ t = { s with stack := t.stack, sp := t.sp, pc := t.pc }) ∧
    (s.sp.val = 16 → exec (.call nnn) s =
      .next { s with status := .halted, fault := some ⟨.stackOverflow, some s.ir, s.pc⟩ })

/-- R133 and R131: a call followed at once by a return restores `pc` and `sp`. -/
def Obligations.CallThenRetRestoresPcAndSp : Prop :=
  ∀ (nnn : Addr) (s : State), s.sp.val < 16 →
    ∃ t u, exec (.call nnn) s = .next t ∧ exec .ret (t.fetched 0x00EE) = .next u ∧ u.pc = s.pc ∧ u.sp = s.sp

/-- R134, R135; a skip is `pc <- pc + 2` (R130) and nothing else. -/
def Obligations.ImmediateSkips : Prop :=
  (∀ w : Word, w &&& 0xF000 = 0x3000 → decode w = .ok (.seImm (fieldX w) (fieldKK w))) ∧
  (∀ w : Word, w &&& 0xF000 = 0x4000 → decode w = .ok (.sneImm (fieldX w) (fieldKK w))) ∧
  ∀ (x : Reg) (kk : Byte) (s : State),
    exec (.seImm x kk) s = .next { s with pc := if s.reg x = kk then s.pc + 2 else s.pc } ∧
    exec (.sneImm x kk) s = .next { s with pc := if s.reg x ≠ kk then s.pc + 2 else s.pc }

/-- R136, R137; a skip is `pc <- pc + 2` (R130) and nothing else. That `w[3:0]` is ignored is D11 (log 12). -/
def Obligations.RegisterSkips : Prop :=
  (∀ w : Word, w &&& 0xF000 = 0x5000 → decode w = .ok (.seReg (fieldX w) (fieldY w))) ∧
  (∀ w : Word, w &&& 0xF000 = 0x9000 → decode w = .ok (.sneReg (fieldX w) (fieldY w))) ∧
  ∀ (x y : Reg) (s : State),
    exec (.seReg x y) s = .next { s with pc := if s.reg x = s.reg y then s.pc + 2 else s.pc } ∧
    exec (.sneReg x y) s = .next { s with pc := if s.reg x ≠ s.reg y then s.pc + 2 else s.pc }

/-- R139: the sum is reduced neither to 12 nor to 16 bits (D5, log 24). -/
def Obligations.JpV0AddsV0 : Prop :=
  (∀ w : Word, w &&& 0xF000 = 0xB000 → decode w = .ok (.jpV0 (fieldNNN w))) ∧
  ∀ (nnn : Addr) (s : State), ∃ t, exec (.jpV0 nnn) s = .next t ∧
    t.pc.toNat = nnn.toNat + (s.reg 0).toNat ∧ t = { s with pc := t.pc }

/-! ## Registers and ALU (43_register_alu.md) -/

/-- R151. -/
def Obligations.LdImmLoadsTheImmediate : Prop :=
  (∀ w : Word, w &&& 0xF000 = 0x6000 → decode w = .ok (.ldImm (fieldX w) (fieldKK w))) ∧
  ∀ (x : Reg) (kk : Byte) (s : State), ∃ t, exec (.ldImm x kk) s = .next t ∧
    t.reg x = kk ∧ (∀ z, z ≠ x → t.reg z = s.reg z) ∧ t = { s with v := t.v }

/-- R152: no flag. -/
def Obligations.AddImmWrapsWithoutFlag : Prop :=
  (∀ w : Word, w &&& 0xF000 = 0x7000 → decode w = .ok (.addImm (fieldX w) (fieldKK w))) ∧
  ∀ (x : Reg) (kk : Byte) (s : State), ∃ t, exec (.addImm x kk) s = .next t ∧
    (t.reg x).toNat = ((s.reg x).toNat + kk.toNat) % 256 ∧
    (∀ z, z ≠ x → t.reg z = s.reg z) ∧ t = { s with v := t.v }

/-- R153. -/
def Obligations.LdRegCopies : Prop :=
  (∀ w : Word, w &&& 0xF00F = 0x8000 → decode w = .ok (.ldReg (fieldX w) (fieldY w))) ∧
  ∀ (x y : Reg) (s : State), ∃ t, exec (.ldReg x y) s = .next t ∧
    t.reg x = s.reg y ∧ (∀ z, z ≠ x → t.reg z = s.reg z) ∧ t = { s with v := t.v }

/-- R154, R155, R156: bit by bit, no flag (D12, log 25). -/
def Obligations.BitwiseOperations : Prop :=
  (∀ w : Word, w &&& 0xF00F = 0x8001 → decode w = .ok (.orReg (fieldX w) (fieldY w))) ∧
  (∀ w : Word, w &&& 0xF00F = 0x8002 → decode w = .ok (.andReg (fieldX w) (fieldY w))) ∧
  (∀ w : Word, w &&& 0xF00F = 0x8003 → decode w = .ok (.xorReg (fieldX w) (fieldY w))) ∧
  ∀ (x y : Reg) (s : State), ∃ t1 t2 t3,
    exec (.orReg x y) s = .next t1 ∧ exec (.andReg x y) s = .next t2 ∧ exec (.xorReg x y) s = .next t3 ∧
    (∀ k, (t1.reg x).getLsbD k = ((s.reg x).getLsbD k || (s.reg y).getLsbD k)) ∧
    (∀ k, (t2.reg x).getLsbD k = ((s.reg x).getLsbD k && (s.reg y).getLsbD k)) ∧
    (∀ k, (t3.reg x).getLsbD k = ((s.reg x).getLsbD k != (s.reg y).getLsbD k)) ∧
    (∀ z, z ≠ x → t1.reg z = s.reg z ∧ t2.reg z = s.reg z ∧ t3.reg z = s.reg z) ∧
    t1 = { s with v := t1.v } ∧ t2 = { s with v := t2.v } ∧ t3 = { s with v := t3.v }

/-- R157 with R104: the sum modulo 256 and the carry, the flag written last (D8, log 13). -/
def Obligations.AddRegSumAndCarry : Prop :=
  (∀ w : Word, w &&& 0xF00F = 0x8004 → decode w = .ok (.addReg (fieldX w) (fieldY w))) ∧
  ∀ (x y : Reg) (s : State), ∃ t, exec (.addReg x y) s = .next t ∧
    t.reg VF = (if (s.reg x).toNat + (s.reg y).toNat > 255 then 1 else 0) ∧
    (x ≠ VF → (t.reg x).toNat = ((s.reg x).toNat + (s.reg y).toNat) % 256) ∧
    (∀ z, z ≠ x → z ≠ VF → t.reg z = s.reg z) ∧ t = { s with v := t.v }

/-- R158 with R104: the difference modulo 256 and the not-borrow, the flag written last (D8, log 13). -/
def Obligations.SubRegDifferenceAndNotBorrow : Prop :=
  (∀ w : Word, w &&& 0xF00F = 0x8005 → decode w = .ok (.subReg (fieldX w) (fieldY w))) ∧
  ∀ (x y : Reg) (s : State), ∃ t, exec (.subReg x y) s = .next t ∧
    t.reg VF = (if (s.reg x).toNat ≥ (s.reg y).toNat then 1 else 0) ∧
    (x ≠ VF → (t.reg x).toNat =
      if (s.reg x).toNat ≥ (s.reg y).toNat then (s.reg x).toNat - (s.reg y).toNat
      else (s.reg x).toNat + 256 - (s.reg y).toNat) ∧
    (∀ z, z ≠ x → z ≠ VF → t.reg z = s.reg z) ∧ t = { s with v := t.v }

/-- R160 with R104: the reverse difference; `V[y]` is not written; the flag last (D8, log 13). -/
def Obligations.SubnRegReverseDifference : Prop :=
  (∀ w : Word, w &&& 0xF00F = 0x8007 → decode w = .ok (.subnReg (fieldX w) (fieldY w))) ∧
  ∀ (x y : Reg) (s : State), ∃ t, exec (.subnReg x y) s = .next t ∧
    t.reg VF = (if (s.reg y).toNat ≥ (s.reg x).toNat then 1 else 0) ∧
    (x ≠ VF → (t.reg x).toNat =
      if (s.reg y).toNat ≥ (s.reg x).toNat then (s.reg y).toNat - (s.reg x).toNat
      else (s.reg y).toNat + 256 - (s.reg x).toNat) ∧
    (∀ z, z ≠ x → z ≠ VF → t.reg z = s.reg z) ∧ t = { s with v := t.v }

/-- R159, R161 with R104: shifts by one, the bit shifted out in `VF`, written last (D8, log 13); `V[y]` plays no part
(D12, log 25). -/
def Obligations.ShiftsByOne : Prop :=
  (∀ w : Word, w &&& 0xF00F = 0x8006 → decode w = .ok (.shr (fieldX w))) ∧
  (∀ w : Word, w &&& 0xF00F = 0x800E → decode w = .ok (.shl (fieldX w))) ∧
  ∀ (x : Reg) (s : State), ∃ t u, exec (.shr x) s = .next t ∧ exec (.shl x) s = .next u ∧
    (t.reg VF).toNat = (s.reg x).toNat % 2 ∧ (u.reg VF).toNat = (s.reg x).toNat / 128 ∧
    (x ≠ VF → (t.reg x).toNat = (s.reg x).toNat / 2 ∧ (u.reg x).toNat = 2 * (s.reg x).toNat % 256) ∧
    (∀ z, z ≠ x → z ≠ VF → t.reg z = s.reg z ∧ u.reg z = s.reg z) ∧
    t = { s with v := t.v } ∧ u = { s with v := u.v }

/-- R162: the random byte masked, for every random byte; the byte is the one the cycle sampled
(StepRunsDecodedInstruction). The byte is under no law (D17, log 10). -/
def Obligations.RndMasksTheRandomByte : Prop :=
  (∀ w : Word, w &&& 0xF000 = 0xC000 → decode w = .ok (.rnd (fieldX w) (fieldKK w))) ∧
  ∀ (x : Reg) (kk : Byte) (s : State), ∃ t, exec (.rnd x kk) s = .next t ∧
    (∀ k, (t.reg x).getLsbD k = (s.rnd.getLsbD k && kk.getLsbD k)) ∧
    (∀ z, z ≠ x → t.reg z = s.reg z) ∧ t = { s with v := t.v }

/-! ## Index register and memory (44_index_memory.md) -/

/-- R170, R171; the sum wraps at 16 bits (D6, log 24). -/
def Obligations.IndexLoadsAndAdds : Prop :=
  (∀ w : Word, w &&& 0xF000 = 0xA000 → decode w = .ok (.ldI (fieldNNN w))) ∧
  (∀ w : Word, w &&& 0xF0FF = 0xF01E → decode w = .ok (.addI (fieldX w))) ∧
  (∀ (nnn : Addr) (s : State), ∃ t, exec (.ldI nnn) s = .next t ∧
    t.i.toNat = nnn.toNat ∧ t = { s with i := t.i }) ∧
  ∀ (x : Reg) (s : State), ∃ t, exec (.addI x) s = .next t ∧
    t.i.toNat = (s.i.toNat + (s.reg x).toNat) % 65536 ∧ t = { s with i := t.i }

/-- R172: the glyph address of a digit; above 15 the instruction completes and only `I` is unspecified (a free value,
whose draw advances the model's counter; log 8). -/
def Obligations.LdFPointsAtTheGlyph : Prop :=
  (∀ w : Word, w &&& 0xF0FF = 0xF029 → decode w = .ok (.ldF (fieldX w))) ∧
  ∀ (x : Reg) (s : State),
    ((s.reg x).toNat ≤ 15 → ∃ t, exec (.ldF x) s = .next t ∧
      t.i.toNat = Config.glyphBase.val + 5 * (s.reg x).toNat ∧ t = { s with i := t.i }) ∧
    ((s.reg x).toNat > 15 → ∃ t, exec (.ldF x) s = .next t ∧ t = { s with i := t.i, draws := t.draws })

/-- R173: three decimal digits, hundreds at the lowest address; every other byte unchanged; the bound, over natural
numbers (D7, log 24), tested first (D9, log 14). -/
def Obligations.LdBStoresDecimalDigits : Prop :=
  (∀ w : Word, w &&& 0xF0FF = 0xF033 → decode w = .ok (.ldB (fieldX w))) ∧
  ∀ (x : Reg) (s : State), s.mem.wf = true →
    (s.i.toNat + 2 ≤ 0xFFF → ∃ t, exec (.ldB x) s = .next t ∧
      (t.mem.read s.i.toNat).toNat = (s.reg x).toNat / 100 ∧
      (t.mem.read (s.i.toNat + 1)).toNat = (s.reg x).toNat / 10 % 10 ∧
      (t.mem.read (s.i.toNat + 2)).toNat = (s.reg x).toNat % 10 ∧
      (∀ a, a < s.i.toNat ∨ s.i.toNat + 2 < a → t.mem.read a = s.mem.read a) ∧ t = { s with mem := t.mem }) ∧
    (s.i.toNat + 2 > 0xFFF → exec (.ldB x) s =
      .next { s with status := .halted, fault := some ⟨.memoryOutOfRange, some s.ir, s.pc⟩ })

/-- R174: `V[0]` to `V[x]` inclusive; every other byte and `I` unchanged (D12, log 25); the bound, over natural numbers
(D7, log 24), tested first (D9, log 14). -/
def Obligations.StoreRegsStoresInclusive : Prop :=
  (∀ w : Word, w &&& 0xF0FF = 0xF055 → decode w = .ok (.storeRegs (fieldX w))) ∧
  ∀ (x : Reg) (s : State), s.mem.wf = true →
    (s.i.toNat + x.val ≤ 0xFFF → ∃ t, exec (.storeRegs x) s = .next t ∧
      (∀ j : Reg, j.val ≤ x.val → t.mem.read (s.i.toNat + j.val) = s.reg j) ∧
      (∀ a, a < s.i.toNat ∨ s.i.toNat + x.val < a → t.mem.read a = s.mem.read a) ∧ t = { s with mem := t.mem }) ∧
    (s.i.toNat + x.val > 0xFFF → exec (.storeRegs x) s =
      .next { s with status := .halted, fault := some ⟨.memoryOutOfRange, some s.ir, s.pc⟩ })

/-- R175: `V[0]` to `V[x]` inclusive; the registers above, `I` (D12, log 25) and all of memory unchanged; the bound, over
natural numbers (D7, log 24), tested first (D9, log 14). -/
def Obligations.LoadRegsLoadsInclusive : Prop :=
  (∀ w : Word, w &&& 0xF0FF = 0xF065 → decode w = .ok (.loadRegs (fieldX w))) ∧
  ∀ (x : Reg) (s : State),
    (s.i.toNat + x.val ≤ 0xFFF → ∃ t, exec (.loadRegs x) s = .next t ∧
      (∀ j : Reg, t.reg j = if j.val ≤ x.val then s.mem.read (s.i.toNat + j.val) else s.reg j) ∧
      (∀ a, t.mem.read a = s.mem.read a) ∧ t = { s with v := t.v }) ∧
    (s.i.toNat + x.val > 0xFFF → exec (.loadRegs x) s =
      .next { s with status := .halted, fault := some ⟨.memoryOutOfRange, some s.ir, s.pc⟩ })

/-- R175: a store and then a load with the same `I` and `x` restores the registers, whatever they hold in between. -/
def Obligations.StoreThenLoadRestoresRegisters : Prop :=
  ∀ (x : Reg) (s : State) (v : Vector Byte 16), s.mem.wf = true → s.i.toNat + x.val ≤ 0xFFF →
    ∃ t u, exec (.storeRegs x) s = .next t ∧ exec (.loadRegs x) { t with v := v } = .next u ∧
      ∀ j : Reg, j.val ≤ x.val → u.reg j = s.reg j

/-- R63: a store is seen by the fetch of the very next cycle: the word at a `pc` inside the stored range is the two
registers stored there. The spec derives it from R60 and R101; storing over code is allowed by D21 (log 17). -/
def Obligations.NextFetchSeesTheStore : Prop :=
  ∀ (x : Reg) (s : State) (j k : Reg), s.mem.wf = true → s.i.toNat + x.val ≤ 0xFFF →
    k.val = j.val + 1 → k.val ≤ x.val → s.pc.toNat = s.i.toNat + j.val →
    ∃ t, exec (.storeRegs x) s = .next t ∧ t.fetchWord = some (s.reg j ++ s.reg k)

/-! ## Keys and timers (45_keys_timers.md, 60_exceptions.md) -/

/-- R180, R181, R187: the snapshot decides; for a code above 15 either outcome (a free value, whose draw advances the
model's counter; log 9), and nothing else changes. -/
def Obligations.KeySkips : Prop :=
  (∀ w : Word, w &&& 0xF0FF = 0xE09E → decode w = .ok (.skp (fieldX w))) ∧
  (∀ w : Word, w &&& 0xF0FF = 0xE0A1 → decode w = .ok (.sknp (fieldX w))) ∧
  ∀ (x : Reg) (s : State),
    (∀ down : Bool, s.keysnap[(s.reg x).toNat]? = some down →
      exec (.skp x) s = .next { s with pc := if down = true then s.pc + 2 else s.pc } ∧
      exec (.sknp x) s = .next { s with pc := if down = true then s.pc else s.pc + 2 }) ∧
    ((s.reg x).toNat > 15 → ∃ t u, exec (.skp x) s = .next t ∧ exec (.sknp x) s = .next u ∧
      (t.pc = s.pc ∨ t.pc = s.pc + 2) ∧ (u.pc = s.pc ∨ u.pc = s.pc + 2) ∧
      t = { s with pc := t.pc, draws := t.draws } ∧ u = { s with pc := u.pc, draws := u.draws })

/-- R182. -/
def Obligations.LdVxDtReadsTheDelayTimer : Prop :=
  (∀ w : Word, w &&& 0xF0FF = 0xF007 → decode w = .ok (.ldVxDt (fieldX w))) ∧
  ∀ (x : Reg) (s : State), ∃ t, exec (.ldVxDt x) s = .next t ∧
    t.reg x = s.dt ∧ (∀ z, z ≠ x → t.reg z = s.reg z) ∧ t = { s with v := t.v }

/-- R185, R186 with R26: the timers are set, and `sound_active` follows `ST`. -/
def Obligations.TimerWrites : Prop :=
  (∀ w : Word, w &&& 0xF0FF = 0xF015 → decode w = .ok (.ldDtVx (fieldX w))) ∧
  (∀ w : Word, w &&& 0xF0FF = 0xF018 → decode w = .ok (.ldStVx (fieldX w))) ∧
  ∀ (x : Reg) (s : State),
    exec (.ldDtVx x) s = .next { s with dt := s.reg x } ∧
    ∃ t, exec (.ldStVx x) s = .next t ∧ t = { s with st := s.reg x } ∧
      (soundActive t = true ↔ (s.reg x).toNat > 0)

/-- R183: the engine is suspended, nothing else changes. -/
def Obligations.LdVxKSuspends : Prop :=
  (∀ w : Word, w &&& 0xF0FF = 0xF00A → decode w = .ok (.ldVxK (fieldX w))) ∧
  ∀ (x : Reg) (s : State), exec (.ldVxK x) s = .next { s with status := .waitKey x }

/-- R184: the event completes the wait and is ignored in every other status (D13, log 22). -/
def Obligations.KeyDeliverCompletesTheWait : Prop :=
  ∀ (k : Key) (s : State),
    (∀ x, s.status = .waitKey x → ∃ t, transition (.keyDeliver k) s = .next t ∧
      (t.reg x).toNat = k.val ∧ (∀ z, z ≠ x → t.reg z = s.reg z) ∧
      t = { s with v := t.v, status := .running }) ∧
    ((∀ x, s.status ≠ .waitKey x) → transition (.keyDeliver k) s = .next s)

/-- R219: only `LD Vx,K` enters WAIT_KEY. -/
def Obligations.OnlyLdVxKEntersTheWait : Prop :=
  ∀ (i : Instr) (s t : State) (x : Reg), s.status = .running → exec i s = .next t →
    t.status = .waitKey x → i = .ldVxK x

/-- R219: a step in WAIT_KEY with no key event changes the timers at most (and what the host presents). -/
def Obligations.WaitingStepChangesTimersOnly : Prop :=
  ∀ (s : State) (x : Reg), s.status = .waitKey x → s.nextInputs.keyEvent = none →
    ∃ t, step s = .next t ∧ t = { s with dt := t.dt, st := t.st, inputs := t.inputs, draws := t.draws } ∧
      t.dt.toNat ≤ s.dt.toNat ∧ t.st.toNat ≤ s.st.toNat

/-- R209, R220: HALTED is left by no step; all state is frozen but the timers (and what the host presents). That a step
request in HALTED is answered is D32 (log 7). -/
def Obligations.HaltedIsTerminal : Prop :=
  ∀ s : State, s.status = .halted →
    ∃ t, step s = .next t ∧ t = { s with dt := t.dt, st := t.st, inputs := t.inputs, draws := t.draws } ∧
      t.dt.toNat ≤ s.dt.toNat ∧ t.st.toNat ≤ s.st.toNat

/-- R213: `Tick` decrements each timer above 0, in every status, and touches nothing else. -/
def Obligations.TickDecrementsTheTimers : Prop :=
  ∀ s : State, ∃ t, transition .tick s = .next t ∧
    (t.dt.toNat = if s.dt.toNat > 0 then s.dt.toNat - 1 else 0) ∧
    (t.st.toNat = if s.st.toNat > 0 then s.st.toNat - 1 else 0) ∧ t = { s with dt := t.dt, st := t.st }

/-- R215: after `n` ticks with no write in between, a timer that held `v` holds `max(v − n, 0)`. -/
def Obligations.TimersCountTicks : Prop :=
  ∀ (s : State) (n : Nat), (s.ticks n).dt.toNat = s.dt.toNat - n ∧ (s.ticks n).st.toNat = s.st.toNat - n ∧
    s.ticks n = { s with dt := (s.ticks n).dt, st := (s.ticks n).st }

/-! ## Reset (70_reset_and_hazards.md, 10_state.md R35) -/

/-- R231: what `Construct` leaves, from any state. The zeros outside the glyph table are the spec's decision D3
(log 3), the entries of the call stack and the latches are the model's (logs 4, 5) and are not named here. -/
def Obligations.ConstructLeavesTheResetState : Prop :=
  ∀ s : State, ∃ t, transition .construct s = .next t ∧
    (∀ k : Fin 80, t.mem.read (Config.glyphBase.val + k.val) = Config.glyphData[k]) ∧
    (∀ a, (∀ k : Fin 80, a ≠ Config.glyphBase.val + k.val) → t.mem.read a = 0) ∧
    (∀ p, t.fb.get p = false) ∧ (∀ x, t.reg x = 0) ∧ t.i = 0 ∧ t.pc = 0x200 ∧ t.sp = 0 ∧ t.dt = 0 ∧ t.st = 0 ∧
    t.status = .running ∧ t.fault = none

/-- R234: an accepted `Load`. That a first `Load` is accepted in every status, also HALTED by steps taken before it, is
the model's choice (log 30). -/
def Obligations.LoadPlacesTheProgram : Prop :=
  ∀ (bytes : List Byte) (s : State), s.mem.wf = true → s.loaded = false → bytes.length ≤ 3584 →
    ∃ t, transition (.load bytes) s = .next t ∧
      (∀ k b, bytes[k]? = some b → t.mem.read (0x200 + k) = b) ∧
      (∀ a, a < 0x200 ∨ 0x200 + bytes.length ≤ a → t.mem.read a = s.mem.read a) ∧
      (∀ x, t.reg x = 0) ∧ t.i = 0 ∧ t.pc = 0x200 ∧ t.sp = 0 ∧ t.dt = 0 ∧ t.st = 0 ∧
      t.status = .running ∧ t.fault = none ∧ t.fb = s.fb

/-- R235, R232: a program of more than 3584 bytes is rejected with no successor state, one of 3584 is accepted, and a
second `Load` has no meaning. The form of the answers is the model's (D25, log 19), and so is that the status is not
tested (log 30). -/
def Obligations.LoadRejections : Prop :=
  ∀ (bytes : List Byte) (s : State),
    (s.loaded = false → bytes.length > 3584 → transition (.load bytes) s = .fault .programTooLarge) ∧
    (s.loaded = false → bytes.length = 3584 → ∃ t, transition (.load bytes) s = .next t) ∧
    (s.loaded = true → transition (.load bytes) s = .refused .secondLoad)

/-- With nothing loaded and no program byte in memory the first step halts with InvalidOpcode on the word 0x0000. That
stepping before any `Load` acts so is the model's choice (log 18): R235 and R88 derive this halt only for a program of 0
bytes that `Load` accepted. The zero fill is D3 (log 3), the recorded `pc` is D10 (log 15). -/
def Obligations.EmptyProgramHaltsAtOnce : Prop :=
  ∃ t, step State.reset = .next t ∧ t.status = .halted ∧
    t.fault = some ⟨.invalidOpcode, some 0x0000, 0x0202⟩

/-- R132, R238: a jump to its own address is an endless loop: the step keeps the end of the run (D26, log 20) and every
piece of state but the timers, the latches and what the host presents. -/
def Obligations.SelfJumpIsAnEndlessLoop : Prop :=
  ∀ s : State, s.endOfRun = true → ∃ t, step s = .next t ∧ t.endOfRun = true ∧
    t = { s with dt := t.dt, st := t.st, keysnap := t.keysnap, ir := t.ir, rnd := t.rnd, inputs := t.inputs,
                 draws := t.draws }

/-! ## The invariant of the machine -/

/-- The invariant holds at reset. -/
def Obligations.InvariantHoldsAtReset : Prop := State.reset.Inv

/-- From every state that meets the invariant a step gives a state that meets it: memory stays canonical, `pc` and
return addresses stay bounded (R23), the status stays accounted for (R206, R208, R219). -/
def Obligations.StepKeepsTheInvariant : Prop :=
  ∀ s t : State, s.Inv → step s = .next t → t.Inv

/-- The same for each of the five transitions of R110, `Construct` and `Load` included. -/
def Obligations.TransitionsKeepTheInvariant : Prop :=
  ∀ (a : Transition) (s t : State), s.Inv → transition a s = .next t → t.Inv
end

