-- ==== Sys2Proof/Laws/Encoding.lean ====
section
/-! SUPPORT. The fields of a word that a format lays out (30_encoding.md R81, R82), and its bits under the masks of
R85. -/

namespace Sys2Proof

/-! ### formatA -/

theorem fieldOp_formatA (op : BitVec 4) (nnn : Addr) :
    fieldOp (formatA op nnn) = op := by
  apply BitVec.eq_of_getLsbD_eq
  intro k hk
  simp only [fieldOp, formatA, BitVec.getLsbD_extractLsb', BitVec.getLsbD_append]
  interval_cases k <;> simp

theorem fieldNNN_formatA (op : BitVec 4) (nnn : Addr) :
    fieldNNN (formatA op nnn) = nnn := by
  apply BitVec.eq_of_getLsbD_eq
  intro k hk
  simp only [fieldNNN, formatA, BitVec.getLsbD_extractLsb', BitVec.getLsbD_append]
  interval_cases k <;> simp

theorem formatA_family (op : BitVec 4) (nnn : Addr) :
    formatA op nnn &&& 0xF000 = op ++ 0#12 := by
  apply BitVec.eq_of_getLsbD_eq
  intro k hk
  simp only [formatA, BitVec.getLsbD_and, BitVec.getLsbD_append]
  interval_cases k <;> simp

/-! ### formatXK -/

theorem fieldOp_formatXK (op : BitVec 4) (x : Reg) (kk : Byte) :
    fieldOp (formatXK op x kk) = op := by
  apply BitVec.eq_of_getLsbD_eq
  intro k hk
  simp only [fieldOp, formatXK, BitVec.getLsbD_extractLsb', BitVec.getLsbD_append]
  interval_cases k <;> simp

theorem fieldKK_formatXK (op : BitVec 4) (x : Reg) (kk : Byte) :
    fieldKK (formatXK op x kk) = kk := by
  apply BitVec.eq_of_getLsbD_eq
  intro k hk
  simp only [fieldKK, formatXK, BitVec.getLsbD_extractLsb', BitVec.getLsbD_append]
  interval_cases k <;> simp

theorem fieldX_formatXK (op : BitVec 4) (x : Reg) (kk : Byte) : fieldX (formatXK op x kk) = x := by
  have h : (formatXK op x kk).extractLsb' 8 4 = regBits x := by
    apply BitVec.eq_of_getLsbD_eq
    intro k hk
    simp only [formatXK, BitVec.getLsbD_extractLsb', BitVec.getLsbD_append]
    interval_cases k <;> simp
  rw [fieldX, h]
  rfl

theorem formatXK_family (op : BitVec 4) (x : Reg) (kk : Byte) :
    formatXK op x kk &&& 0xF000 = op ++ 0#12 := by
  apply BitVec.eq_of_getLsbD_eq
  intro k hk
  simp only [formatXK, BitVec.getLsbD_and, BitVec.getLsbD_append]
  interval_cases k <;> simp

theorem formatXK_low (op : BitVec 4) (x : Reg) (kk : Byte) :
    formatXK op x kk &&& 0xF0FF = op ++ 0#4 ++ kk := by
  apply BitVec.eq_of_getLsbD_eq
  intro k hk
  simp only [formatXK, BitVec.getLsbD_and, BitVec.getLsbD_append]
  interval_cases k <;> simp

/-! ### formatXYN -/

theorem fieldOp_formatXYN (op : BitVec 4) (x y : Reg) (n : BitVec 4) :
    fieldOp (formatXYN op x y n) = op := by
  apply BitVec.eq_of_getLsbD_eq
  intro k hk
  simp only [fieldOp, formatXYN, BitVec.getLsbD_extractLsb', BitVec.getLsbD_append]
  interval_cases k <;> simp

theorem fieldN_formatXYN (op : BitVec 4) (x y : Reg) (n : BitVec 4) :
    fieldN (formatXYN op x y n) = n := by
  apply BitVec.eq_of_getLsbD_eq
  intro k hk
  simp only [fieldN, formatXYN, BitVec.getLsbD_extractLsb', BitVec.getLsbD_append]
  interval_cases k <;> simp

theorem fieldX_formatXYN (op : BitVec 4) (x y : Reg) (n : BitVec 4) : fieldX (formatXYN op x y n) = x := by
  have h : (formatXYN op x y n).extractLsb' 8 4 = regBits x := by
    apply BitVec.eq_of_getLsbD_eq
    intro k hk
    simp only [formatXYN, BitVec.getLsbD_extractLsb', BitVec.getLsbD_append]
    interval_cases k <;> simp
  rw [fieldX, h]
  rfl

theorem fieldY_formatXYN (op : BitVec 4) (x y : Reg) (n : BitVec 4) : fieldY (formatXYN op x y n) = y := by
  have h : (formatXYN op x y n).extractLsb' 4 4 = regBits y := by
    apply BitVec.eq_of_getLsbD_eq
    intro k hk
    simp only [formatXYN, BitVec.getLsbD_extractLsb', BitVec.getLsbD_append]
    interval_cases k <;> simp
  rw [fieldY, h]
  rfl

theorem formatXYN_family (op : BitVec 4) (x y : Reg) (n : BitVec 4) :
    formatXYN op x y n &&& 0xF000 = op ++ 0#12 := by
  apply BitVec.eq_of_getLsbD_eq
  intro k hk
  simp only [formatXYN, BitVec.getLsbD_and, BitVec.getLsbD_append]
  interval_cases k <;> simp

theorem formatXYN_low (op : BitVec 4) (x y : Reg) (n : BitVec 4) :
    formatXYN op x y n &&& 0xF00F = op ++ 0#8 ++ n := by
  apply BitVec.eq_of_getLsbD_eq
  intro k hk
  simp only [formatXYN, BitVec.getLsbD_and, BitVec.getLsbD_append]
  interval_cases k <;> simp

/-! ### Fields of a masked word -/

theorem fieldOp_and_F000 (w : Word) : fieldOp (w &&& 0xF000) = fieldOp w := by
  apply BitVec.eq_of_getLsbD_eq
  intro k hk
  simp only [fieldOp, BitVec.getLsbD_extractLsb', BitVec.getLsbD_and]
  interval_cases k <;> simp

theorem fieldOp_and_F00F (w : Word) : fieldOp (w &&& 0xF00F) = fieldOp w := by
  apply BitVec.eq_of_getLsbD_eq
  intro k hk
  simp only [fieldOp, BitVec.getLsbD_extractLsb', BitVec.getLsbD_and]
  interval_cases k <;> simp

theorem fieldN_and_F00F (w : Word) : fieldN (w &&& 0xF00F) = fieldN w := by
  apply BitVec.eq_of_getLsbD_eq
  intro k hk
  simp only [fieldN, BitVec.getLsbD_extractLsb', BitVec.getLsbD_and]
  interval_cases k <;> simp

theorem fieldOp_and_F0FF (w : Word) : fieldOp (w &&& 0xF0FF) = fieldOp w := by
  apply BitVec.eq_of_getLsbD_eq
  intro k hk
  simp only [fieldOp, BitVec.getLsbD_extractLsb', BitVec.getLsbD_and]
  interval_cases k <;> simp

theorem fieldKK_and_F0FF (w : Word) : fieldKK (w &&& 0xF0FF) = fieldKK w := by
  apply BitVec.eq_of_getLsbD_eq
  intro k hk
  simp only [fieldKK, BitVec.getLsbD_extractLsb', BitVec.getLsbD_and]
  interval_cases k <;> simp

/-- The family of a word whose bits under 0xF000 are known. -/
theorem fieldOp_of_F000 {w v : Word} (h : w &&& 0xF000 = v) : fieldOp w = fieldOp v := by
  rw [← fieldOp_and_F000, h]

/-- Family and low nibble of a word whose bits under 0xF00F are known. -/
theorem fields_of_F00F {w v : Word} (h : w &&& 0xF00F = v) : fieldOp w = fieldOp v ∧ fieldN w = fieldN v := by
  rw [← fieldOp_and_F00F, ← fieldN_and_F00F, h]
  exact ⟨rfl, rfl⟩

/-- Family and low byte of a word whose bits under 0xF0FF are known. -/
theorem fields_of_F0FF {w v : Word} (h : w &&& 0xF0FF = v) : fieldOp w = fieldOp v ∧ fieldKK w = fieldKK v := by
  rw [← fieldOp_and_F0FF, ← fieldKK_and_F0FF, h]
  exact ⟨rfl, rfl⟩

end Sys2Proof
end

