-- ==== Sys2Proof/Laws/State.lean ====
section
/-! SUPPORT. What every update of the state does to every field: one lemma per field per update. -/

namespace Sys2Proof.Machine

/-! ### setReg -/

@[simp] theorem State.setReg_v (s : State) (x : Reg) (u : Byte) : (s.setReg x u).v = s.v.set x u := rfl
@[simp] theorem State.setReg_i (s : State) (x : Reg) (u : Byte) : (s.setReg x u).i = s.i := rfl
@[simp] theorem State.setReg_pc (s : State) (x : Reg) (u : Byte) : (s.setReg x u).pc = s.pc := rfl
@[simp] theorem State.setReg_stack (s : State) (x : Reg) (u : Byte) : (s.setReg x u).stack = s.stack := rfl
@[simp] theorem State.setReg_sp (s : State) (x : Reg) (u : Byte) : (s.setReg x u).sp = s.sp := rfl
@[simp] theorem State.setReg_dt (s : State) (x : Reg) (u : Byte) : (s.setReg x u).dt = s.dt := rfl
@[simp] theorem State.setReg_st (s : State) (x : Reg) (u : Byte) : (s.setReg x u).st = s.st := rfl
@[simp] theorem State.setReg_mem (s : State) (x : Reg) (u : Byte) : (s.setReg x u).mem = s.mem := rfl
@[simp] theorem State.setReg_fb (s : State) (x : Reg) (u : Byte) : (s.setReg x u).fb = s.fb := rfl
@[simp] theorem State.setReg_status (s : State) (x : Reg) (u : Byte) : (s.setReg x u).status = s.status := rfl
@[simp] theorem State.setReg_fault (s : State) (x : Reg) (u : Byte) : (s.setReg x u).fault = s.fault := rfl
@[simp] theorem State.setReg_keysnap (s : State) (x : Reg) (u : Byte) : (s.setReg x u).keysnap = s.keysnap := rfl
@[simp] theorem State.setReg_ir (s : State) (x : Reg) (u : Byte) : (s.setReg x u).ir = s.ir := rfl
@[simp] theorem State.setReg_rnd (s : State) (x : Reg) (u : Byte) : (s.setReg x u).rnd = s.rnd := rfl
@[simp] theorem State.setReg_inputs (s : State) (x : Reg) (u : Byte) : (s.setReg x u).inputs = s.inputs := rfl
@[simp] theorem State.setReg_draws (s : State) (x : Reg) (u : Byte) : (s.setReg x u).draws = s.draws := rfl
@[simp] theorem State.setReg_loaded (s : State) (x : Reg) (u : Byte) : (s.setReg x u).loaded = s.loaded := rfl

/-! ### setWithFlag -/

@[simp] theorem State.setWithFlag_v (s : State) (x : Reg) (u : Byte) (c : Bool) :
    (s.setWithFlag x u c).v = (s.v.set x u).set VF (flagByte c) := rfl
@[simp] theorem State.setWithFlag_i (s : State) (x : Reg) (u : Byte) (c : Bool) : (s.setWithFlag x u c).i = s.i := rfl
@[simp] theorem State.setWithFlag_pc (s : State) (x : Reg) (u : Byte) (c : Bool) :
    (s.setWithFlag x u c).pc = s.pc := rfl
@[simp] theorem State.setWithFlag_stack (s : State) (x : Reg) (u : Byte) (c : Bool) :
    (s.setWithFlag x u c).stack = s.stack := rfl
@[simp] theorem State.setWithFlag_sp (s : State) (x : Reg) (u : Byte) (c : Bool) :
    (s.setWithFlag x u c).sp = s.sp := rfl
@[simp] theorem State.setWithFlag_dt (s : State) (x : Reg) (u : Byte) (c : Bool) :
    (s.setWithFlag x u c).dt = s.dt := rfl
@[simp] theorem State.setWithFlag_st (s : State) (x : Reg) (u : Byte) (c : Bool) :
    (s.setWithFlag x u c).st = s.st := rfl
@[simp] theorem State.setWithFlag_mem (s : State) (x : Reg) (u : Byte) (c : Bool) :
    (s.setWithFlag x u c).mem = s.mem := rfl
@[simp] theorem State.setWithFlag_fb (s : State) (x : Reg) (u : Byte) (c : Bool) :
    (s.setWithFlag x u c).fb = s.fb := rfl
@[simp] theorem State.setWithFlag_status (s : State) (x : Reg) (u : Byte) (c : Bool) :
    (s.setWithFlag x u c).status = s.status := rfl
@[simp] theorem State.setWithFlag_fault (s : State) (x : Reg) (u : Byte) (c : Bool) :
    (s.setWithFlag x u c).fault = s.fault := rfl
@[simp] theorem State.setWithFlag_keysnap (s : State) (x : Reg) (u : Byte) (c : Bool) :
    (s.setWithFlag x u c).keysnap = s.keysnap := rfl
@[simp] theorem State.setWithFlag_ir (s : State) (x : Reg) (u : Byte) (c : Bool) :
    (s.setWithFlag x u c).ir = s.ir := rfl
@[simp] theorem State.setWithFlag_rnd (s : State) (x : Reg) (u : Byte) (c : Bool) :
    (s.setWithFlag x u c).rnd = s.rnd := rfl
@[simp] theorem State.setWithFlag_inputs (s : State) (x : Reg) (u : Byte) (c : Bool) :
    (s.setWithFlag x u c).inputs = s.inputs := rfl
@[simp] theorem State.setWithFlag_draws (s : State) (x : Reg) (u : Byte) (c : Bool) :
    (s.setWithFlag x u c).draws = s.draws := rfl
@[simp] theorem State.setWithFlag_loaded (s : State) (x : Reg) (u : Byte) (c : Bool) :
    (s.setWithFlag x u c).loaded = s.loaded := rfl

/-! ### setI -/

@[simp] theorem State.setI_v (s : State) (a : Word) : (s.setI a).v = s.v := rfl
@[simp] theorem State.setI_i (s : State) (a : Word) : (s.setI a).i = a := rfl
@[simp] theorem State.setI_pc (s : State) (a : Word) : (s.setI a).pc = s.pc := rfl
@[simp] theorem State.setI_stack (s : State) (a : Word) : (s.setI a).stack = s.stack := rfl
@[simp] theorem State.setI_sp (s : State) (a : Word) : (s.setI a).sp = s.sp := rfl
@[simp] theorem State.setI_dt (s : State) (a : Word) : (s.setI a).dt = s.dt := rfl
@[simp] theorem State.setI_st (s : State) (a : Word) : (s.setI a).st = s.st := rfl
@[simp] theorem State.setI_mem (s : State) (a : Word) : (s.setI a).mem = s.mem := rfl
@[simp] theorem State.setI_fb (s : State) (a : Word) : (s.setI a).fb = s.fb := rfl
@[simp] theorem State.setI_status (s : State) (a : Word) : (s.setI a).status = s.status := rfl
@[simp] theorem State.setI_fault (s : State) (a : Word) : (s.setI a).fault = s.fault := rfl
@[simp] theorem State.setI_keysnap (s : State) (a : Word) : (s.setI a).keysnap = s.keysnap := rfl
@[simp] theorem State.setI_ir (s : State) (a : Word) : (s.setI a).ir = s.ir := rfl
@[simp] theorem State.setI_rnd (s : State) (a : Word) : (s.setI a).rnd = s.rnd := rfl
@[simp] theorem State.setI_inputs (s : State) (a : Word) : (s.setI a).inputs = s.inputs := rfl
@[simp] theorem State.setI_draws (s : State) (a : Word) : (s.setI a).draws = s.draws := rfl
@[simp] theorem State.setI_loaded (s : State) (a : Word) : (s.setI a).loaded = s.loaded := rfl

/-! ### setPc -/

@[simp] theorem State.setPc_v (s : State) (a : Word) : (s.setPc a).v = s.v := rfl
@[simp] theorem State.setPc_i (s : State) (a : Word) : (s.setPc a).i = s.i := rfl
@[simp] theorem State.setPc_pc (s : State) (a : Word) : (s.setPc a).pc = a := rfl
@[simp] theorem State.setPc_stack (s : State) (a : Word) : (s.setPc a).stack = s.stack := rfl
@[simp] theorem State.setPc_sp (s : State) (a : Word) : (s.setPc a).sp = s.sp := rfl
@[simp] theorem State.setPc_dt (s : State) (a : Word) : (s.setPc a).dt = s.dt := rfl
@[simp] theorem State.setPc_st (s : State) (a : Word) : (s.setPc a).st = s.st := rfl
@[simp] theorem State.setPc_mem (s : State) (a : Word) : (s.setPc a).mem = s.mem := rfl
@[simp] theorem State.setPc_fb (s : State) (a : Word) : (s.setPc a).fb = s.fb := rfl
@[simp] theorem State.setPc_status (s : State) (a : Word) : (s.setPc a).status = s.status := rfl
@[simp] theorem State.setPc_fault (s : State) (a : Word) : (s.setPc a).fault = s.fault := rfl
@[simp] theorem State.setPc_keysnap (s : State) (a : Word) : (s.setPc a).keysnap = s.keysnap := rfl
@[simp] theorem State.setPc_ir (s : State) (a : Word) : (s.setPc a).ir = s.ir := rfl
@[simp] theorem State.setPc_rnd (s : State) (a : Word) : (s.setPc a).rnd = s.rnd := rfl
@[simp] theorem State.setPc_inputs (s : State) (a : Word) : (s.setPc a).inputs = s.inputs := rfl
@[simp] theorem State.setPc_draws (s : State) (a : Word) : (s.setPc a).draws = s.draws := rfl
@[simp] theorem State.setPc_loaded (s : State) (a : Word) : (s.setPc a).loaded = s.loaded := rfl

/-! ### skipIf -/

@[simp] theorem State.skipIf_v (s : State) (c : Bool) : (s.skipIf c).v = s.v := rfl
@[simp] theorem State.skipIf_i (s : State) (c : Bool) : (s.skipIf c).i = s.i := rfl
@[simp] theorem State.skipIf_pc (s : State) (c : Bool) : (s.skipIf c).pc = if c then s.pc + 2 else s.pc := rfl
@[simp] theorem State.skipIf_stack (s : State) (c : Bool) : (s.skipIf c).stack = s.stack := rfl
@[simp] theorem State.skipIf_sp (s : State) (c : Bool) : (s.skipIf c).sp = s.sp := rfl
@[simp] theorem State.skipIf_dt (s : State) (c : Bool) : (s.skipIf c).dt = s.dt := rfl
@[simp] theorem State.skipIf_st (s : State) (c : Bool) : (s.skipIf c).st = s.st := rfl
@[simp] theorem State.skipIf_mem (s : State) (c : Bool) : (s.skipIf c).mem = s.mem := rfl
@[simp] theorem State.skipIf_fb (s : State) (c : Bool) : (s.skipIf c).fb = s.fb := rfl
@[simp] theorem State.skipIf_status (s : State) (c : Bool) : (s.skipIf c).status = s.status := rfl
@[simp] theorem State.skipIf_fault (s : State) (c : Bool) : (s.skipIf c).fault = s.fault := rfl
@[simp] theorem State.skipIf_keysnap (s : State) (c : Bool) : (s.skipIf c).keysnap = s.keysnap := rfl
@[simp] theorem State.skipIf_ir (s : State) (c : Bool) : (s.skipIf c).ir = s.ir := rfl
@[simp] theorem State.skipIf_rnd (s : State) (c : Bool) : (s.skipIf c).rnd = s.rnd := rfl
@[simp] theorem State.skipIf_inputs (s : State) (c : Bool) : (s.skipIf c).inputs = s.inputs := rfl
@[simp] theorem State.skipIf_draws (s : State) (c : Bool) : (s.skipIf c).draws = s.draws := rfl
@[simp] theorem State.skipIf_loaded (s : State) (c : Bool) : (s.skipIf c).loaded = s.loaded := rfl

/-! ### drawn -/

@[simp] theorem State.drawn_v (s : State) : s.drawn.v = s.v := rfl
@[simp] theorem State.drawn_i (s : State) : s.drawn.i = s.i := rfl
@[simp] theorem State.drawn_pc (s : State) : s.drawn.pc = s.pc := rfl
@[simp] theorem State.drawn_stack (s : State) : s.drawn.stack = s.stack := rfl
@[simp] theorem State.drawn_sp (s : State) : s.drawn.sp = s.sp := rfl
@[simp] theorem State.drawn_dt (s : State) : s.drawn.dt = s.dt := rfl
@[simp] theorem State.drawn_st (s : State) : s.drawn.st = s.st := rfl
@[simp] theorem State.drawn_mem (s : State) : s.drawn.mem = s.mem := rfl
@[simp] theorem State.drawn_fb (s : State) : s.drawn.fb = s.fb := rfl
@[simp] theorem State.drawn_status (s : State) : s.drawn.status = s.status := rfl
@[simp] theorem State.drawn_fault (s : State) : s.drawn.fault = s.fault := rfl
@[simp] theorem State.drawn_keysnap (s : State) : s.drawn.keysnap = s.keysnap := rfl
@[simp] theorem State.drawn_ir (s : State) : s.drawn.ir = s.ir := rfl
@[simp] theorem State.drawn_rnd (s : State) : s.drawn.rnd = s.rnd := rfl
@[simp] theorem State.drawn_inputs (s : State) : s.drawn.inputs = s.inputs := rfl
@[simp] theorem State.drawn_draws (s : State) : s.drawn.draws = s.draws + 1 := rfl
@[simp] theorem State.drawn_loaded (s : State) : s.drawn.loaded = s.loaded := rfl

/-! ### raiseWith -/

@[simp] theorem State.raiseWith_v (s : State) (k : Fault) (w : Option Word) : (s.raiseWith k w).v = s.v := rfl
@[simp] theorem State.raiseWith_i (s : State) (k : Fault) (w : Option Word) : (s.raiseWith k w).i = s.i := rfl
@[simp] theorem State.raiseWith_pc (s : State) (k : Fault) (w : Option Word) : (s.raiseWith k w).pc = s.pc := rfl
@[simp] theorem State.raiseWith_stack (s : State) (k : Fault) (w : Option Word) :
    (s.raiseWith k w).stack = s.stack := rfl
@[simp] theorem State.raiseWith_sp (s : State) (k : Fault) (w : Option Word) : (s.raiseWith k w).sp = s.sp := rfl
@[simp] theorem State.raiseWith_dt (s : State) (k : Fault) (w : Option Word) : (s.raiseWith k w).dt = s.dt := rfl
@[simp] theorem State.raiseWith_st (s : State) (k : Fault) (w : Option Word) : (s.raiseWith k w).st = s.st := rfl
@[simp] theorem State.raiseWith_mem (s : State) (k : Fault) (w : Option Word) : (s.raiseWith k w).mem = s.mem := rfl
@[simp] theorem State.raiseWith_fb (s : State) (k : Fault) (w : Option Word) : (s.raiseWith k w).fb = s.fb := rfl
@[simp] theorem State.raiseWith_status (s : State) (k : Fault) (w : Option Word) :
    (s.raiseWith k w).status = .halted := rfl
@[simp] theorem State.raiseWith_fault (s : State) (k : Fault) (w : Option Word) :
    (s.raiseWith k w).fault = some ⟨k, w, s.pc⟩ := rfl
@[simp] theorem State.raiseWith_keysnap (s : State) (k : Fault) (w : Option Word) :
    (s.raiseWith k w).keysnap = s.keysnap := rfl
@[simp] theorem State.raiseWith_ir (s : State) (k : Fault) (w : Option Word) : (s.raiseWith k w).ir = s.ir := rfl
@[simp] theorem State.raiseWith_rnd (s : State) (k : Fault) (w : Option Word) : (s.raiseWith k w).rnd = s.rnd := rfl
@[simp] theorem State.raiseWith_inputs (s : State) (k : Fault) (w : Option Word) :
    (s.raiseWith k w).inputs = s.inputs := rfl
@[simp] theorem State.raiseWith_draws (s : State) (k : Fault) (w : Option Word) :
    (s.raiseWith k w).draws = s.draws := rfl
@[simp] theorem State.raiseWith_loaded (s : State) (k : Fault) (w : Option Word) :
    (s.raiseWith k w).loaded = s.loaded := rfl

/-! ### raise -/

@[simp] theorem State.raise_v (s : State) (k : Fault) : (State.raise s k).v = s.v := rfl
@[simp] theorem State.raise_i (s : State) (k : Fault) : (State.raise s k).i = s.i := rfl
@[simp] theorem State.raise_pc (s : State) (k : Fault) : (State.raise s k).pc = s.pc := rfl
@[simp] theorem State.raise_stack (s : State) (k : Fault) : (State.raise s k).stack = s.stack := rfl
@[simp] theorem State.raise_sp (s : State) (k : Fault) : (State.raise s k).sp = s.sp := rfl
@[simp] theorem State.raise_dt (s : State) (k : Fault) : (State.raise s k).dt = s.dt := rfl
@[simp] theorem State.raise_st (s : State) (k : Fault) : (State.raise s k).st = s.st := rfl
@[simp] theorem State.raise_mem (s : State) (k : Fault) : (State.raise s k).mem = s.mem := rfl
@[simp] theorem State.raise_fb (s : State) (k : Fault) : (State.raise s k).fb = s.fb := rfl
@[simp] theorem State.raise_status (s : State) (k : Fault) : (State.raise s k).status = .halted := rfl
@[simp] theorem State.raise_fault (s : State) (k : Fault) : (State.raise s k).fault = some ⟨k, some s.ir, s.pc⟩ := rfl
@[simp] theorem State.raise_keysnap (s : State) (k : Fault) : (State.raise s k).keysnap = s.keysnap := rfl
@[simp] theorem State.raise_ir (s : State) (k : Fault) : (State.raise s k).ir = s.ir := rfl
@[simp] theorem State.raise_rnd (s : State) (k : Fault) : (State.raise s k).rnd = s.rnd := rfl
@[simp] theorem State.raise_inputs (s : State) (k : Fault) : (State.raise s k).inputs = s.inputs := rfl
@[simp] theorem State.raise_draws (s : State) (k : Fault) : (State.raise s k).draws = s.draws := rfl
@[simp] theorem State.raise_loaded (s : State) (k : Fault) : (State.raise s k).loaded = s.loaded := rfl

/-! ### raiseFetch -/

@[simp] theorem State.raiseFetch_v (s : State) : s.raiseFetch.v = s.v := rfl
@[simp] theorem State.raiseFetch_i (s : State) : s.raiseFetch.i = s.i := rfl
@[simp] theorem State.raiseFetch_pc (s : State) : s.raiseFetch.pc = s.pc := rfl
@[simp] theorem State.raiseFetch_stack (s : State) : s.raiseFetch.stack = s.stack := rfl
@[simp] theorem State.raiseFetch_sp (s : State) : s.raiseFetch.sp = s.sp := rfl
@[simp] theorem State.raiseFetch_dt (s : State) : s.raiseFetch.dt = s.dt := rfl
@[simp] theorem State.raiseFetch_st (s : State) : s.raiseFetch.st = s.st := rfl
@[simp] theorem State.raiseFetch_mem (s : State) : s.raiseFetch.mem = s.mem := rfl
@[simp] theorem State.raiseFetch_fb (s : State) : s.raiseFetch.fb = s.fb := rfl
@[simp] theorem State.raiseFetch_status (s : State) : s.raiseFetch.status = .halted := rfl
@[simp] theorem State.raiseFetch_fault (s : State) : s.raiseFetch.fault = some ⟨.memoryOutOfRange, none, s.pc⟩ := rfl
@[simp] theorem State.raiseFetch_keysnap (s : State) : s.raiseFetch.keysnap = s.keysnap := rfl
@[simp] theorem State.raiseFetch_ir (s : State) : s.raiseFetch.ir = s.ir := rfl
@[simp] theorem State.raiseFetch_rnd (s : State) : s.raiseFetch.rnd = s.rnd := rfl
@[simp] theorem State.raiseFetch_inputs (s : State) : s.raiseFetch.inputs = s.inputs := rfl
@[simp] theorem State.raiseFetch_draws (s : State) : s.raiseFetch.draws = s.draws := rfl
@[simp] theorem State.raiseFetch_loaded (s : State) : s.raiseFetch.loaded = s.loaded := rfl

/-! ### tick -/

@[simp] theorem State.tick_v (s : State) : s.tick.v = s.v := rfl
@[simp] theorem State.tick_i (s : State) : s.tick.i = s.i := rfl
@[simp] theorem State.tick_pc (s : State) : s.tick.pc = s.pc := rfl
@[simp] theorem State.tick_stack (s : State) : s.tick.stack = s.stack := rfl
@[simp] theorem State.tick_sp (s : State) : s.tick.sp = s.sp := rfl
@[simp] theorem State.tick_dt (s : State) : s.tick.dt = tickTimer s.dt := rfl
@[simp] theorem State.tick_st (s : State) : s.tick.st = tickTimer s.st := rfl
@[simp] theorem State.tick_mem (s : State) : s.tick.mem = s.mem := rfl
@[simp] theorem State.tick_fb (s : State) : s.tick.fb = s.fb := rfl
@[simp] theorem State.tick_status (s : State) : s.tick.status = s.status := rfl
@[simp] theorem State.tick_fault (s : State) : s.tick.fault = s.fault := rfl
@[simp] theorem State.tick_keysnap (s : State) : s.tick.keysnap = s.keysnap := rfl
@[simp] theorem State.tick_ir (s : State) : s.tick.ir = s.ir := rfl
@[simp] theorem State.tick_rnd (s : State) : s.tick.rnd = s.rnd := rfl
@[simp] theorem State.tick_inputs (s : State) : s.tick.inputs = s.inputs := rfl
@[simp] theorem State.tick_draws (s : State) : s.tick.draws = s.draws := rfl
@[simp] theorem State.tick_loaded (s : State) : s.tick.loaded = s.loaded := rfl

/-! ### ticks -/

@[simp] theorem State.ticks_v (s : State) (n : Nat) : (s.ticks n).v = s.v := rfl
@[simp] theorem State.ticks_i (s : State) (n : Nat) : (s.ticks n).i = s.i := rfl
@[simp] theorem State.ticks_pc (s : State) (n : Nat) : (s.ticks n).pc = s.pc := rfl
@[simp] theorem State.ticks_stack (s : State) (n : Nat) : (s.ticks n).stack = s.stack := rfl
@[simp] theorem State.ticks_sp (s : State) (n : Nat) : (s.ticks n).sp = s.sp := rfl
@[simp] theorem State.ticks_dt (s : State) (n : Nat) : (s.ticks n).dt = tickTimerN n s.dt := rfl
@[simp] theorem State.ticks_st (s : State) (n : Nat) : (s.ticks n).st = tickTimerN n s.st := rfl
@[simp] theorem State.ticks_mem (s : State) (n : Nat) : (s.ticks n).mem = s.mem := rfl
@[simp] theorem State.ticks_fb (s : State) (n : Nat) : (s.ticks n).fb = s.fb := rfl
@[simp] theorem State.ticks_status (s : State) (n : Nat) : (s.ticks n).status = s.status := rfl
@[simp] theorem State.ticks_fault (s : State) (n : Nat) : (s.ticks n).fault = s.fault := rfl
@[simp] theorem State.ticks_keysnap (s : State) (n : Nat) : (s.ticks n).keysnap = s.keysnap := rfl
@[simp] theorem State.ticks_ir (s : State) (n : Nat) : (s.ticks n).ir = s.ir := rfl
@[simp] theorem State.ticks_rnd (s : State) (n : Nat) : (s.ticks n).rnd = s.rnd := rfl
@[simp] theorem State.ticks_inputs (s : State) (n : Nat) : (s.ticks n).inputs = s.inputs := rfl
@[simp] theorem State.ticks_draws (s : State) (n : Nat) : (s.ticks n).draws = s.draws := rfl
@[simp] theorem State.ticks_loaded (s : State) (n : Nat) : (s.ticks n).loaded = s.loaded := rfl

/-! ### latch -/

@[simp] theorem State.latch_v (s : State) (keys : Vector Bool 16) (r : Byte) : (s.latch keys r).v = s.v := rfl
@[simp] theorem State.latch_i (s : State) (keys : Vector Bool 16) (r : Byte) : (s.latch keys r).i = s.i := rfl
@[simp] theorem State.latch_pc (s : State) (keys : Vector Bool 16) (r : Byte) : (s.latch keys r).pc = s.pc := rfl
@[simp] theorem State.latch_stack (s : State) (keys : Vector Bool 16) (r : Byte) :
    (s.latch keys r).stack = s.stack := rfl
@[simp] theorem State.latch_sp (s : State) (keys : Vector Bool 16) (r : Byte) : (s.latch keys r).sp = s.sp := rfl
@[simp] theorem State.latch_dt (s : State) (keys : Vector Bool 16) (r : Byte) : (s.latch keys r).dt = s.dt := rfl
@[simp] theorem State.latch_st (s : State) (keys : Vector Bool 16) (r : Byte) : (s.latch keys r).st = s.st := rfl
@[simp] theorem State.latch_mem (s : State) (keys : Vector Bool 16) (r : Byte) : (s.latch keys r).mem = s.mem := rfl
@[simp] theorem State.latch_fb (s : State) (keys : Vector Bool 16) (r : Byte) : (s.latch keys r).fb = s.fb := rfl
@[simp] theorem State.latch_status (s : State) (keys : Vector Bool 16) (r : Byte) :
    (s.latch keys r).status = s.status := rfl
@[simp] theorem State.latch_fault (s : State) (keys : Vector Bool 16) (r : Byte) :
    (s.latch keys r).fault = s.fault := rfl
@[simp] theorem State.latch_keysnap (s : State) (keys : Vector Bool 16) (r : Byte) :
    (s.latch keys r).keysnap = keys := rfl
@[simp] theorem State.latch_ir (s : State) (keys : Vector Bool 16) (r : Byte) : (s.latch keys r).ir = s.ir := rfl
@[simp] theorem State.latch_rnd (s : State) (keys : Vector Bool 16) (r : Byte) : (s.latch keys r).rnd = r := rfl
@[simp] theorem State.latch_inputs (s : State) (keys : Vector Bool 16) (r : Byte) :
    (s.latch keys r).inputs = s.inputs := rfl
@[simp] theorem State.latch_draws (s : State) (keys : Vector Bool 16) (r : Byte) :
    (s.latch keys r).draws = s.draws := rfl
@[simp] theorem State.latch_loaded (s : State) (keys : Vector Bool 16) (r : Byte) :
    (s.latch keys r).loaded = s.loaded := rfl

/-! ### fetched -/

@[simp] theorem State.fetched_v (s : State) (w : Word) : (s.fetched w).v = s.v := rfl
@[simp] theorem State.fetched_i (s : State) (w : Word) : (s.fetched w).i = s.i := rfl
@[simp] theorem State.fetched_pc (s : State) (w : Word) : (s.fetched w).pc = s.pc + 2 := rfl
@[simp] theorem State.fetched_stack (s : State) (w : Word) : (s.fetched w).stack = s.stack := rfl
@[simp] theorem State.fetched_sp (s : State) (w : Word) : (s.fetched w).sp = s.sp := rfl
@[simp] theorem State.fetched_dt (s : State) (w : Word) : (s.fetched w).dt = s.dt := rfl
@[simp] theorem State.fetched_st (s : State) (w : Word) : (s.fetched w).st = s.st := rfl
@[simp] theorem State.fetched_mem (s : State) (w : Word) : (s.fetched w).mem = s.mem := rfl
@[simp] theorem State.fetched_fb (s : State) (w : Word) : (s.fetched w).fb = s.fb := rfl
@[simp] theorem State.fetched_status (s : State) (w : Word) : (s.fetched w).status = s.status := rfl
@[simp] theorem State.fetched_fault (s : State) (w : Word) : (s.fetched w).fault = s.fault := rfl
@[simp] theorem State.fetched_keysnap (s : State) (w : Word) : (s.fetched w).keysnap = s.keysnap := rfl
@[simp] theorem State.fetched_ir (s : State) (w : Word) : (s.fetched w).ir = w := rfl
@[simp] theorem State.fetched_rnd (s : State) (w : Word) : (s.fetched w).rnd = s.rnd := rfl
@[simp] theorem State.fetched_inputs (s : State) (w : Word) : (s.fetched w).inputs = s.inputs := rfl
@[simp] theorem State.fetched_draws (s : State) (w : Word) : (s.fetched w).draws = s.draws := rfl
@[simp] theorem State.fetched_loaded (s : State) (w : Word) : (s.fetched w).loaded = s.loaded := rfl

/-! ### store -/

@[simp] theorem State.store_v (s : State) (bytes : List Byte) : (s.store bytes).v = s.v := rfl
@[simp] theorem State.store_i (s : State) (bytes : List Byte) : (s.store bytes).i = s.i := rfl
@[simp] theorem State.store_pc (s : State) (bytes : List Byte) : (s.store bytes).pc = s.pc := rfl
@[simp] theorem State.store_stack (s : State) (bytes : List Byte) : (s.store bytes).stack = s.stack := rfl
@[simp] theorem State.store_sp (s : State) (bytes : List Byte) : (s.store bytes).sp = s.sp := rfl
@[simp] theorem State.store_dt (s : State) (bytes : List Byte) : (s.store bytes).dt = s.dt := rfl
@[simp] theorem State.store_st (s : State) (bytes : List Byte) : (s.store bytes).st = s.st := rfl
@[simp] theorem State.store_mem (s : State) (bytes : List Byte) :
    (s.store bytes).mem = s.mem.writeBytes (s.addrOf 0) bytes := rfl
@[simp] theorem State.store_fb (s : State) (bytes : List Byte) : (s.store bytes).fb = s.fb := rfl
@[simp] theorem State.store_status (s : State) (bytes : List Byte) : (s.store bytes).status = s.status := rfl
@[simp] theorem State.store_fault (s : State) (bytes : List Byte) : (s.store bytes).fault = s.fault := rfl
@[simp] theorem State.store_keysnap (s : State) (bytes : List Byte) : (s.store bytes).keysnap = s.keysnap := rfl
@[simp] theorem State.store_ir (s : State) (bytes : List Byte) : (s.store bytes).ir = s.ir := rfl
@[simp] theorem State.store_rnd (s : State) (bytes : List Byte) : (s.store bytes).rnd = s.rnd := rfl
@[simp] theorem State.store_inputs (s : State) (bytes : List Byte) : (s.store bytes).inputs = s.inputs := rfl
@[simp] theorem State.store_draws (s : State) (bytes : List Byte) : (s.store bytes).draws = s.draws := rfl
@[simp] theorem State.store_loaded (s : State) (bytes : List Byte) : (s.store bytes).loaded = s.loaded := rfl

/-! ### construct -/

@[simp] theorem State.construct_v (s : State) : s.construct.v = State.reset.v := rfl
@[simp] theorem State.construct_i (s : State) : s.construct.i = State.reset.i := rfl
@[simp] theorem State.construct_pc (s : State) : s.construct.pc = State.reset.pc := rfl
@[simp] theorem State.construct_stack (s : State) : s.construct.stack = State.reset.stack := rfl
@[simp] theorem State.construct_sp (s : State) : s.construct.sp = State.reset.sp := rfl
@[simp] theorem State.construct_dt (s : State) : s.construct.dt = State.reset.dt := rfl
@[simp] theorem State.construct_st (s : State) : s.construct.st = State.reset.st := rfl
@[simp] theorem State.construct_mem (s : State) : s.construct.mem = State.reset.mem := rfl
@[simp] theorem State.construct_fb (s : State) : s.construct.fb = State.reset.fb := rfl
@[simp] theorem State.construct_status (s : State) : s.construct.status = State.reset.status := rfl
@[simp] theorem State.construct_fault (s : State) : s.construct.fault = State.reset.fault := rfl
@[simp] theorem State.construct_keysnap (s : State) : s.construct.keysnap = State.reset.keysnap := rfl
@[simp] theorem State.construct_ir (s : State) : s.construct.ir = State.reset.ir := rfl
@[simp] theorem State.construct_rnd (s : State) : s.construct.rnd = State.reset.rnd := rfl
@[simp] theorem State.construct_inputs (s : State) : s.construct.inputs = s.inputs := rfl
@[simp] theorem State.construct_draws (s : State) : s.construct.draws = s.draws := rfl
@[simp] theorem State.construct_loaded (s : State) : s.construct.loaded = State.reset.loaded := rfl

/-! ### loadProgram -/

@[simp] theorem State.loadProgram_v (s : State) (bytes : List Byte) : (s.loadProgram bytes).v = State.reset.v := rfl
@[simp] theorem State.loadProgram_i (s : State) (bytes : List Byte) : (s.loadProgram bytes).i = 0x0000 := rfl
@[simp] theorem State.loadProgram_pc (s : State) (bytes : List Byte) : (s.loadProgram bytes).pc = 0x0200 := rfl
@[simp] theorem State.loadProgram_stack (s : State) (bytes : List Byte) : (s.loadProgram bytes).stack = s.stack := rfl
@[simp] theorem State.loadProgram_sp (s : State) (bytes : List Byte) : (s.loadProgram bytes).sp = 0 := rfl
@[simp] theorem State.loadProgram_dt (s : State) (bytes : List Byte) : (s.loadProgram bytes).dt = 0x00 := rfl
@[simp] theorem State.loadProgram_st (s : State) (bytes : List Byte) : (s.loadProgram bytes).st = 0x00 := rfl
@[simp] theorem State.loadProgram_mem (s : State) (bytes : List Byte) :
    (s.loadProgram bytes).mem = s.mem.writeBytes 0x200 bytes := rfl
@[simp] theorem State.loadProgram_fb (s : State) (bytes : List Byte) : (s.loadProgram bytes).fb = s.fb := rfl
@[simp] theorem State.loadProgram_status (s : State) (bytes : List Byte) :
    (s.loadProgram bytes).status = .running := rfl
@[simp] theorem State.loadProgram_fault (s : State) (bytes : List Byte) : (s.loadProgram bytes).fault = none := rfl
@[simp] theorem State.loadProgram_keysnap (s : State) (bytes : List Byte) :
    (s.loadProgram bytes).keysnap = s.keysnap := rfl
@[simp] theorem State.loadProgram_ir (s : State) (bytes : List Byte) : (s.loadProgram bytes).ir = s.ir := rfl
@[simp] theorem State.loadProgram_rnd (s : State) (bytes : List Byte) : (s.loadProgram bytes).rnd = s.rnd := rfl
@[simp] theorem State.loadProgram_inputs (s : State) (bytes : List Byte) :
    (s.loadProgram bytes).inputs = s.inputs := rfl
@[simp] theorem State.loadProgram_draws (s : State) (bytes : List Byte) : (s.loadProgram bytes).draws = s.draws := rfl
@[simp] theorem State.loadProgram_loaded (s : State) (bytes : List Byte) : (s.loadProgram bytes).loaded = true := rfl

/-! ### takeInputs -/

@[simp] theorem State.takeInputs_v (s : State) : s.takeInputs.v = s.v := by
  unfold State.takeInputs; split <;> rfl
@[simp] theorem State.takeInputs_i (s : State) : s.takeInputs.i = s.i := by
  unfold State.takeInputs; split <;> rfl
@[simp] theorem State.takeInputs_pc (s : State) : s.takeInputs.pc = s.pc := by
  unfold State.takeInputs; split <;> rfl
@[simp] theorem State.takeInputs_stack (s : State) : s.takeInputs.stack = s.stack := by
  unfold State.takeInputs; split <;> rfl
@[simp] theorem State.takeInputs_sp (s : State) : s.takeInputs.sp = s.sp := by
  unfold State.takeInputs; split <;> rfl
@[simp] theorem State.takeInputs_dt (s : State) : s.takeInputs.dt = s.dt := by
  unfold State.takeInputs; split <;> rfl
@[simp] theorem State.takeInputs_st (s : State) : s.takeInputs.st = s.st := by
  unfold State.takeInputs; split <;> rfl
@[simp] theorem State.takeInputs_mem (s : State) : s.takeInputs.mem = s.mem := by
  unfold State.takeInputs; split <;> rfl
@[simp] theorem State.takeInputs_fb (s : State) : s.takeInputs.fb = s.fb := by
  unfold State.takeInputs; split <;> rfl
@[simp] theorem State.takeInputs_status (s : State) : s.takeInputs.status = s.status := by
  unfold State.takeInputs; split <;> rfl
@[simp] theorem State.takeInputs_fault (s : State) : s.takeInputs.fault = s.fault := by
  unfold State.takeInputs; split <;> rfl
@[simp] theorem State.takeInputs_keysnap (s : State) : s.takeInputs.keysnap = s.keysnap := by
  unfold State.takeInputs; split <;> rfl
@[simp] theorem State.takeInputs_ir (s : State) : s.takeInputs.ir = s.ir := by
  unfold State.takeInputs; split <;> rfl
@[simp] theorem State.takeInputs_rnd (s : State) : s.takeInputs.rnd = s.rnd := by
  unfold State.takeInputs; split <;> rfl
@[simp] theorem State.takeInputs_loaded (s : State) : s.takeInputs.loaded = s.loaded := by
  unfold State.takeInputs; split <;> rfl

end Sys2Proof.Machine
end

