-- ==== Sys2Proof/Laws/Registers.lean ====
section
/-! SUPPORT. The laws of the registers, the call stack, the timers and the key test: what each shared operation can do,
said once. -/

namespace Sys2Proof.Machine

/-! ### Registers -/

@[simp] theorem State.reg_setReg_same (s : State) (x : Reg) (u : Byte) : (s.setReg x u).reg x = u := by
  simp [State.reg]

theorem State.reg_setReg (s : State) (x z : Reg) (u : Byte) :
    (s.setReg x u).reg z = if z = x then u else s.reg z := by
  simp only [State.reg, State.setReg_v, Fin.getElem_fin, Vector.getElem_set]
  by_cases h : z = x
  · simp [h]
  · rw [if_neg (fun e => h (Fin.ext e.symm)), if_neg h]

/-- The flag is written last: it is what `VF` holds, whatever the result register (R104). -/
theorem State.reg_setWithFlag (s : State) (x z : Reg) (u : Byte) (c : Bool) :
    (s.setWithFlag x u c).reg z = if z = VF then flagByte c else if z = x then u else s.reg z := by
  unfold State.setWithFlag
  rw [State.reg_setReg, State.reg_setReg]

theorem setRegsFrom_getElem (v : Vector Byte 16) (k : Nat) (us : List Byte) (j : Nat) (hj : j < 16) :
    (setRegsFrom v k us)[j] = if h : k ≤ j ∧ j - k < us.length then us[j - k]'h.2 else v[j] := by
  induction us generalizing v k with
  | nil => simp [setRegsFrom]
  | cons u us ih =>
    simp only [setRegsFrom]
    rw [ih]
    by_cases h1 : k + 1 ≤ j ∧ j - (k + 1) < us.length
    · have h2 : k ≤ j ∧ j - k < (u :: us).length := by simp; omega
      rw [dif_pos h1, dif_pos h2]
      have : j - k = (j - (k + 1)) + 1 := by omega
      simp [this]
    · rw [dif_neg h1]
      by_cases h3 : j = k
      · subst h3
        simp
      · have h2 : ¬ (k ≤ j ∧ j - k < (u :: us).length) := by simp; omega
        rw [dif_neg h2, Vector.getElem_setIfInBounds]
        simp [Ne.symm h3]

/-! ### The call stack -/

/-- Everything `push` can do. -/
theorem State.push_cases (s : State) (a : Word) :
    (s.sp.val = 16 ∧ s.push a = none) ∨
    (∃ h : s.sp.val < 16, s.push a =
      some { s with stack := s.stack.set s.sp.val a, sp := ⟨s.sp.val + 1, by omega⟩ }) := by
  by_cases h : s.sp.val < 16
  · exact .inr ⟨h, by simp [State.push, h]⟩
  · exact .inl ⟨by omega, by simp [State.push, h]⟩

/-- Everything `pop` can do. -/
theorem State.pop_cases (s : State) :
    (s.sp.val = 0 ∧ s.pop = none) ∨
    (∃ h : 0 < s.sp.val, s.pop =
      some (s.stack[s.sp.val - 1]'(by omega), { s with sp := ⟨s.sp.val - 1, by omega⟩ })) := by
  by_cases h : 0 < s.sp.val
  · exact .inr ⟨h, by simp [State.pop, h]⟩
  · exact .inl ⟨by omega, by simp [State.pop, h]⟩

/-! ### The key test -/

/-- Everything the key test can do: a snapshot bit and no change, or a free value and one draw. -/
theorem State.keyTest_cases (s : State) (x : Reg) (free : Nat → Byte → Bool) :
    (∃ h : (s.reg x).toNat < 16, s.keyTest x free = (s.keysnap[(s.reg x).toNat], s)) ∨
    (16 ≤ (s.reg x).toNat ∧ s.keyTest x free = (free s.draws (s.reg x), s.drawn)) := by
  by_cases h : (s.reg x).toNat < 16
  · exact .inl ⟨h, by simp [State.keyTest, h]⟩
  · exact .inr ⟨by omega, by simp [State.keyTest, h]⟩

/-! ### Ticks -/

@[simp] theorem State.ticks_zero (s : State) : s.ticks 0 = s := rfl

/-- The first of `n + 1` ticks is one `Tick` transition. -/
theorem State.ticks_succ (s : State) (n : Nat) : s.ticks (n + 1) = s.tick.ticks n := rfl

/-! ### Every meaning answers a next state, and every engine transition does -/

theorem dispatch_ok {w : Word} {i : Instr} (h : decode w = .ok i) (s : State) : dispatch w s = exec i s := by
  simp [dispatch, h]

theorem dispatch_error {w : Word} {e : DecodeError} (h : decode w = .error e) (s : State) :
    dispatch w s = .next (s.raise .invalidOpcode) := by
  simp [dispatch, h]

end Sys2Proof.Machine
end

