-- ==== Sys2Proof/Laws/Exec.lean ====
section
/-! SUPPORT. What an instruction can do to the status and to memory, said once over all instructions. -/

namespace Sys2Proof.Machine

/-- What an instruction can do to the status: keep it with the fault record, suspend the engine, or raise the one fault
that its rule names. -/
theorem exec_status_cases {i : Instr} {s t : State} (h : exec i s = .next t) :
    (t.status = s.status ∧ t.fault = s.fault) ∨
    (∃ x, i = .ldVxK x ∧ t = { s with status := .waitKey x }) ∨
    (∃ k, executeFault s i = some k ∧ t = s.raise k) := by
  cases i <;> simp only [exec] at h
  case ret =>
    simp only [execRet, Host.Outcome.next.injEq] at h
    obtain ⟨h0, h2⟩ | ⟨h1, h2⟩ := s.pop_cases <;> rw [h2] at h <;> subst h
    · exact .inr (.inr ⟨.stackUnderflow, by simp [executeFault, Fin.ext_iff, h0], rfl⟩)
    · exact .inl ⟨rfl, rfl⟩
  case call a =>
    simp only [execCall, Host.Outcome.next.injEq] at h
    obtain ⟨h0, h2⟩ | ⟨h1, h2⟩ := s.push_cases s.pc <;> rw [h2] at h <;> subst h
    · exact .inr (.inr ⟨.stackOverflow, by simpa [executeFault] using Fin.ext h0, rfl⟩)
    · exact .inl ⟨rfl, rfl⟩
  case drw x y n =>
    cases h
    split
    · exact .inr (.inr ⟨.memoryOutOfRange, by simp_all [executeFault], rfl⟩)
    · exact .inl ⟨rfl, rfl⟩
  case ldB x =>
    cases h
    split
    · exact .inr (.inr ⟨.memoryOutOfRange, by simp_all [executeFault], rfl⟩)
    · exact .inl ⟨rfl, rfl⟩
  case storeRegs x =>
    cases h
    split
    · exact .inr (.inr ⟨.memoryOutOfRange, by simp_all [executeFault], rfl⟩)
    · exact .inl ⟨rfl, rfl⟩
  case loadRegs x =>
    cases h
    split
    · exact .inr (.inr ⟨.memoryOutOfRange, by simp_all [executeFault], rfl⟩)
    · exact .inl ⟨rfl, rfl⟩
  case ldVxK x =>
    cases h
    exact .inr (.inl ⟨x, rfl, rfl⟩)
  case ldF x => cases h; left; split <;> exact ⟨rfl, rfl⟩
  case skp x =>
    cases h; left
    obtain ⟨_, e⟩ | ⟨_, e⟩ := s.keyTest_cases x Config.skpOutOfRange <;> rw [e] <;> exact ⟨rfl, rfl⟩
  case sknp x =>
    cases h; left
    obtain ⟨_, e⟩ | ⟨_, e⟩ := s.keyTest_cases x Config.sknpOutOfRange <;> rw [e] <;> exact ⟨rfl, rfl⟩
  all_goals cases h; exact .inl ⟨rfl, rfl⟩

/-- What an instruction can do to memory: nothing, or one block write. -/
theorem exec_mem_cases {i : Instr} {s t : State} (h : exec i s = .next t) :
    t.mem = s.mem ∨ ∃ a us, t.mem = s.mem.writeBytes a us := by
  cases i <;> simp only [exec] at h
  case ret =>
    simp only [execRet, Host.Outcome.next.injEq] at h
    obtain ⟨h0, h2⟩ | ⟨h1, h2⟩ := s.pop_cases <;> rw [h2] at h <;> subst h <;> exact .inl rfl
  case call a =>
    simp only [execCall, Host.Outcome.next.injEq] at h
    obtain ⟨h0, h2⟩ | ⟨h1, h2⟩ := s.push_cases s.pc <;> rw [h2] at h <;> subst h <;> exact .inl rfl
  case skp x =>
    simp only [execSkp, Host.Outcome.next.injEq] at h
    obtain ⟨_, e⟩ | ⟨_, e⟩ := s.keyTest_cases x Config.skpOutOfRange <;> rw [e] at h <;> subst h <;> exact .inl rfl
  case sknp x =>
    simp only [execSknp, Host.Outcome.next.injEq] at h
    obtain ⟨_, e⟩ | ⟨_, e⟩ := s.keyTest_cases x Config.sknpOutOfRange <;> rw [e] at h <;> subst h <;> exact .inl rfl
  case drw => cases h; split <;> exact .inl rfl
  case ldB => cases h; split <;> first | exact .inl rfl | exact .inr ⟨_, _, rfl⟩
  case storeRegs => cases h; split <;> first | exact .inl rfl | exact .inr ⟨_, _, rfl⟩
  case loadRegs x => cases h; split <;> exact .inl rfl
  case ldF => cases h; split <;> exact .inl rfl
  all_goals cases h; exact .inl rfl

end Sys2Proof.Machine
end

