-- ==== Sys2Proof/Laws/Framebuffer.lean ====
section
/-! SUPPORT. The laws of the framebuffer primitives (41_display.md R120) and of a run of toggles. -/

namespace Sys2Proof.Machine

@[simp] theorem Framebuffer.get_clear (p : Pixel) : Framebuffer.clear.get p = false := by
  simp [Framebuffer.get, Framebuffer.clear]

/-- `XorPixel` toggles its pixel and no other. -/
theorem Framebuffer.get_xorPixel (fb : Framebuffer) (p q : Pixel) :
    (fb.xorPixel p).get q = (fb.get q ^^ decide (q = p)) := by
  obtain ⟨px, py⟩ := p
  obtain ⟨qx, qy⟩ := q
  simp only [Framebuffer.get, Framebuffer.xorPixel, Fin.getElem_fin, Vector.getElem_set, Prod.mk.injEq]
  by_cases hy : py.val = qy.val
  · have hy' : qy = py := Fin.ext hy.symm
    subst hy'
    simp only [BitVec.getLsbD_xor, BitVec.getLsbD_twoPow, if_true, and_true]
    congr 1
    have := qx.isLt
    by_cases hx : px.val = qx.val
    · have : qx = px := Fin.ext hx.symm
      subst this
      simp
    · have : qx ≠ px := fun e => hx (by rw [e])
      simp [hx, this]
  · have : qy ≠ py := fun e => hy (by rw [e])
    simp [hy, this]

/-- Two framebuffers with the same pixels are the same. -/
theorem Framebuffer.ext {fb fb' : Framebuffer} (h : ∀ p, fb.get p = fb'.get p) : fb = fb' := by
  apply Vector.ext
  intro y hy
  apply BitVec.eq_of_getLsbD_eq
  intro x hx
  exact h (⟨x, hx⟩, ⟨y, hy⟩)

/-- A run of toggles at distinct pixels: each listed pixel is toggled once, and the collision flag says whether one of
them was 1 before. -/
theorem drawPixels_spec (ps : List Pixel) (hn : ps.Nodup) (fb : Framebuffer) (c : Bool) :
    (∀ q, (drawPixels ps fb c).1.get q = (fb.get q ^^ decide (q ∈ ps))) ∧
    ((drawPixels ps fb c).2 = true ↔ c = true ∨ ∃ p ∈ ps, fb.get p = true) := by
  induction ps generalizing fb c with
  | nil => simp [drawPixels]
  | cons p ps ih =>
    obtain ⟨hp, hps⟩ := List.nodup_cons.mp hn
    obtain ⟨ih1, ih2⟩ := ih hps (fb.xorPixel p) (c || fb.get p)
    refine ⟨fun q => ?_, ?_⟩
    · rw [drawPixels, ih1, Framebuffer.get_xorPixel]
      by_cases hq : q = p
      · subst hq; simp [hp]
      · simp [hq]
    · rw [drawPixels, ih2]
      simp only [Bool.or_eq_true, List.mem_cons, exists_eq_or_imp, or_assoc]
      refine or_congr_right (or_congr_right ⟨?_, ?_⟩) <;> rintro ⟨q, hq, h⟩ <;> refine ⟨q, hq, ?_⟩
      · rw [Framebuffer.get_xorPixel] at h
        have : q ≠ p := fun e => hp (e ▸ hq)
        simpa [this] using h
      · rw [Framebuffer.get_xorPixel]
        have : q ≠ p := fun e => hp (e ▸ hq)
        simpa [this] using h

/-- Which pixels a row of a sprite toggles. -/
theorem mem_spriteRowPixels {a b : Byte} {row : Nat} {sprite : Byte} {p : Pixel} :
    p ∈ spriteRowPixels a b row sprite ↔
      ∃ bit < 8, sprite.getLsbD (7 - bit) = true ∧ wrapPixel a b bit row = p := by
  simp [spriteRowPixels, and_assoc]

/-- Which pixels the rows of a sprite toggle. -/
theorem mem_spritePixels {a b : Byte} {row : Nat} {rows : List Byte} {p : Pixel} :
    p ∈ spritePixels a b row rows ↔
      ∃ r, ∃ h : r < rows.length, p ∈ spriteRowPixels a b (row + r) rows[r] := by
  induction rows generalizing row with
  | nil => simp [spritePixels]
  | cons sprite rows ih =>
    simp only [spritePixels, List.mem_append, ih, List.length_cons]
    constructor
    · rintro (h | ⟨r, hr, h⟩)
      · exact ⟨0, by omega, by simpa using h⟩
      · exact ⟨r + 1, by omega, by simpa [Nat.add_assoc, Nat.add_comm 1] using h⟩
    · rintro ⟨r, hr, h⟩
      cases r with
      | zero => exact .inl (by simpa using h)
      | succ r => exact .inr ⟨r, by omega, by simpa [Nat.add_assoc, Nat.add_comm 1] using h⟩

theorem wrapPixel_injective {a b : Byte} {bit bit' row row' : Nat} (h1 : bit < 8) (h2 : bit' < 8)
    (h3 : row < 32) (h4 : row' < 32) (h : wrapPixel a b bit row = wrapPixel a b bit' row') :
    bit = bit' ∧ row = row' := by
  simp only [wrapPixel, Prod.mk.injEq, Fin.ext_iff, Fin.val_ofNat] at h
  omega

theorem nodup_spriteRowPixels {a b : Byte} {row : Nat} (hrow : row < 32) (sprite : Byte) :
    (spriteRowPixels a b row sprite).Nodup := by
  unfold spriteRowPixels
  refine List.Nodup.map_on ?_ (List.nodup_range.filter _)
  intro bit hbit bit' hbit' h
  simp at hbit hbit'
  exact (wrapPixel_injective hbit.1 hbit'.1 hrow hrow h).1

/-- A sprite of at most 32 rows touches each pixel at most once (R124, corner case 3). -/
theorem nodup_spritePixels {a b : Byte} {row : Nat} {rows : List Byte} (h : row + rows.length ≤ 32) :
    (spritePixels a b row rows).Nodup := by
  induction rows generalizing row with
  | nil => simp [spritePixels]
  | cons sprite rows ih =>
    simp only [List.length_cons] at h
    simp only [spritePixels]
    rw [List.nodup_append]
    refine ⟨nodup_spriteRowPixels (by omega) _, ih (by omega), ?_⟩
    intro p hp q hq e
    subst e
    obtain ⟨bit, hbit, -, e1⟩ := mem_spriteRowPixels.mp hp
    obtain ⟨r, hr, hq⟩ := mem_spritePixels.mp hq
    obtain ⟨bit', hbit', -, e2⟩ := mem_spriteRowPixels.mp hq
    have := (wrapPixel_injective hbit hbit' (by omega) (by omega) (e1.trans e2.symm)).2
    omega

end Sys2Proof.Machine
end

