-- ==== Sys2Proof/Laws/Memory.lean ====
section
/-! SUPPORT. The laws of main memory: a read after a write, and that every operation keeps the canonical form. -/

namespace Sys2Proof.Machine

theorem Memory.wfFrom_cons {lo b : Nat} {u : Byte} {rest : Memory} :
    Memory.wfFrom lo ((b, u) :: rest) = true ↔
      lo ≤ b ∧ b < 4096 ∧ u ≠ Memory.unlisted b ∧ Memory.wfFrom (b + 1) rest = true := by
  simp [Memory.wfFrom, and_assoc]

theorem Memory.wfFrom_mono {m : Memory} {lo lo' : Nat} (h : lo' ≤ lo) (hm : Memory.wfFrom lo m = true) :
    Memory.wfFrom lo' m = true := by
  cases m with
  | nil => rfl
  | cons c rest =>
    obtain ⟨b, u⟩ := c
    rw [Memory.wfFrom_cons] at hm ⊢
    exact ⟨by omega, hm.2⟩

/-- Below the lowest address it may list, a canonical memory reads as unlisted. -/
theorem Memory.read_below {m : Memory} {lo a : Nat} (hm : Memory.wfFrom lo m = true) (ha : a < lo) :
    m.read a = Memory.unlisted a := by
  induction m generalizing lo with
  | nil => rfl
  | cons c rest ih =>
    obtain ⟨b, u⟩ := c
    rw [Memory.wfFrom_cons] at hm
    simp only [Memory.read]
    rw [if_neg (by omega), ih hm.2.2.2 (by omega)]

theorem Memory.read_insert_other {m : Memory} {a b : Nat} {u : Byte} (h : b ≠ a) :
    (Memory.insert a u m).read b = m.read b := by
  induction m with
  | nil => simp only [Memory.insert]; split <;> simp [Memory.read, h]
  | cons c rest ih =>
    obtain ⟨d, w⟩ := c
    simp only [Memory.insert]
    split_ifs with h1 h2 h3 h4 <;> simp [Memory.read, h, ih]
    · subst h3; simp [h]
    · subst h3; simp [h]

theorem Memory.read_insert_same {m : Memory} {lo a : Nat} {u : Byte} (hm : Memory.wfFrom lo m = true) :
    (Memory.insert a u m).read a = u := by
  induction m generalizing lo with
  | nil => simp only [Memory.insert]; split <;> simp_all [Memory.read]
  | cons c rest ih =>
    obtain ⟨d, w⟩ := c
    rw [Memory.wfFrom_cons] at hm
    simp only [Memory.insert]
    split_ifs with h1 h2 h3 h4
    · simp only [Memory.read]
      rw [if_neg (by omega), Memory.read_below hm.2.2.2 (by omega), h2]
    · simp [Memory.read]
    · subst h3
      rw [Memory.read_below hm.2.2.2 (by omega), h4]
    · simp [Memory.read]
    · simp only [Memory.read]
      rw [if_neg h3, ih hm.2.2.2]

theorem Memory.wfFrom_insert {m : Memory} {lo a : Nat} {u : Byte} (hlo : lo ≤ a) (ha : a < 4096)
    (hm : Memory.wfFrom lo m = true) : Memory.wfFrom lo (Memory.insert a u m) = true := by
  induction m generalizing lo with
  | nil =>
    simp only [Memory.insert]
    split
    · rfl
    · rw [Memory.wfFrom_cons]; exact ⟨hlo, ha, by assumption, rfl⟩
  | cons c rest ih =>
    obtain ⟨d, w⟩ := c
    have hm' := hm
    rw [Memory.wfFrom_cons] at hm
    simp only [Memory.insert]
    split_ifs with h1 h2 h3 h4
    · exact hm'
    · rw [Memory.wfFrom_cons, Memory.wfFrom_cons]
      exact ⟨hlo, ha, h2, by omega, hm.2⟩
    · exact Memory.wfFrom_mono (by omega) hm.2.2.2
    · rw [Memory.wfFrom_cons]
      subst h3
      exact ⟨hlo, ha, h4, hm.2.2.2⟩
    · rw [Memory.wfFrom_cons]
      exact ⟨hm.1, hm.2.1, hm.2.2.1, ih (by omega) hm.2.2.2⟩

/-! ### `write` -/

theorem Memory.read_write_other (m : Memory) {a b : Nat} (u : Byte) (h : b ≠ a) :
    (m.write a u).read b = m.read b := by
  unfold Memory.write
  split
  · exact Memory.read_insert_other h
  · rfl

theorem Memory.read_write_same {m : Memory} {a : Nat} (u : Byte) (hm : m.wf = true) (ha : a < 4096) :
    (m.write a u).read a = u := by
  unfold Memory.write
  rw [if_pos ha]
  exact Memory.read_insert_same hm

/-- A write keeps the canonical form. -/
theorem Memory.wf_write {m : Memory} {a : Nat} (u : Byte) (hm : m.wf = true) : (m.write a u).wf = true := by
  unfold Memory.write
  split
  · exact Memory.wfFrom_insert (Nat.zero_le _) (by assumption) hm
  · exact hm

/-- Reset memory lists nothing, so it is canonical. -/
theorem State.reset_mem_wf : State.reset.mem.wf = true := rfl

/-! ### `writeBytes` -/

/-- A block write keeps the canonical form. -/
theorem Memory.wf_writeBytes {m : Memory} {a : Nat} (us : List Byte) (hm : m.wf = true) :
    (m.writeBytes a us).wf = true := by
  induction us generalizing m a with
  | nil => exact hm
  | cons u us ih => exact ih (Memory.wf_write u hm)

theorem Memory.read_writeBytes_outside (m : Memory) {a b : Nat} (us : List Byte)
    (h : b < a ∨ a + us.length ≤ b) : (m.writeBytes a us).read b = m.read b := by
  induction us generalizing m a with
  | nil => rfl
  | cons u us ih =>
    simp only [List.length_cons] at h
    simp only [Memory.writeBytes]
    rw [ih _ (by omega), Memory.read_write_other _ _ (by omega)]

theorem Memory.read_writeBytes_inside {m : Memory} {a k : Nat} (us : List Byte) (hm : m.wf = true)
    (hk : k < us.length) (ha : a + k < 4096) : (m.writeBytes a us).read (a + k) = us[k] := by
  induction us generalizing m a k with
  | nil => simp at hk
  | cons u us ih =>
    simp only [Memory.writeBytes]
    cases k with
    | zero =>
      rw [Memory.read_writeBytes_outside _ _ (by omega)]
      exact Memory.read_write_same u hm (by omega)
    | succ k =>
      rw [show a + (k + 1) = (a + 1) + k by omega]
      exact ih (Memory.wf_write u hm) (by simpa using hk) (by omega)

/-! ### `readBytes` -/

@[simp] theorem Memory.length_readBytes (m : Memory) (a n : Nat) : (m.readBytes a n).length = n := by
  simp [Memory.readBytes]

@[simp] theorem Memory.getElem_readBytes (m : Memory) (a n k : Nat) (h : k < (m.readBytes a n).length) :
    (m.readBytes a n)[k] = m.read (a + k) := by
  simp [Memory.readBytes]

/-- What is read back from where a block was written. -/
theorem Memory.readBytes_writeBytes {m : Memory} {a : Nat} (us : List Byte) (hm : m.wf = true)
    (ha : a + us.length ≤ 4096) : (m.writeBytes a us).readBytes a us.length = us := by
  apply List.ext_getElem (by simp)
  intro k h1 h2
  rw [Memory.getElem_readBytes]
  exact Memory.read_writeBytes_inside us hm h2 (by omega)

/-- The glyph table lies below 0x200, as GLYPH_BASE + 80 ≤ 0x200 (D1). -/
theorem Config.glyphBase_le : Config.glyphBase.val + 80 ≤ 0x200 := by
  have := Config.glyphBase.isLt
  omega

end Sys2Proof.Machine
end

