-- ==== Sys2Proof/Laws/PerInstr.lean ====
section
/-! SUPPORT. Statements made per instruction. The family EncodesRow: the canonical word of a well-formed instruction
matches the instruction's own row of the opcode map (30_encoding.md R85). -/

namespace Sys2Proof.Laws

/-- The canonical word of `i` matches row `i.rowIndex` of R85. -/
def EncodesRow.Statement (i : Instr) : Prop :=
  i.WellFormed → ∃ r, opcodeTable[i.rowIndex]? = some r ∧ r.matches (encode i) = true

theorem EncodesRow.cls : EncodesRow.Statement .cls := by
  intro _
  exact ⟨_, rfl, by simp only [OpcodeRow.matches, encode, formatXK_low]; decide⟩

theorem EncodesRow.ret : EncodesRow.Statement .ret := by
  intro _
  exact ⟨_, rfl, by simp only [OpcodeRow.matches, encode, formatXK_low]; decide⟩

theorem EncodesRow.jp (nnn : Addr) : EncodesRow.Statement (.jp nnn) := by
  intro _
  exact ⟨_, rfl, by simp only [OpcodeRow.matches, encode, formatA_family]; decide⟩

theorem EncodesRow.call (nnn : Addr) : EncodesRow.Statement (.call nnn) := by
  intro _
  exact ⟨_, rfl, by simp only [OpcodeRow.matches, encode, formatA_family]; decide⟩

theorem EncodesRow.seImm (x : Reg) (kk : Byte) : EncodesRow.Statement (.seImm x kk) := by
  intro _
  exact ⟨_, rfl, by simp only [OpcodeRow.matches, encode, formatXK_family]; decide⟩

theorem EncodesRow.sneImm (x : Reg) (kk : Byte) : EncodesRow.Statement (.sneImm x kk) := by
  intro _
  exact ⟨_, rfl, by simp only [OpcodeRow.matches, encode, formatXK_family]; decide⟩

theorem EncodesRow.seReg (x y : Reg) : EncodesRow.Statement (.seReg x y) := by
  intro _
  exact ⟨_, rfl, by simp only [OpcodeRow.matches, encode, formatXYN_family]; decide⟩

theorem EncodesRow.ldImm (x : Reg) (kk : Byte) : EncodesRow.Statement (.ldImm x kk) := by
  intro _
  exact ⟨_, rfl, by simp only [OpcodeRow.matches, encode, formatXK_family]; decide⟩

theorem EncodesRow.addImm (x : Reg) (kk : Byte) : EncodesRow.Statement (.addImm x kk) := by
  intro _
  exact ⟨_, rfl, by simp only [OpcodeRow.matches, encode, formatXK_family]; decide⟩

theorem EncodesRow.ldReg (x y : Reg) : EncodesRow.Statement (.ldReg x y) := by
  intro _
  exact ⟨_, rfl, by simp only [OpcodeRow.matches, encode, formatXYN_low]; decide⟩

theorem EncodesRow.orReg (x y : Reg) : EncodesRow.Statement (.orReg x y) := by
  intro _
  exact ⟨_, rfl, by simp only [OpcodeRow.matches, encode, formatXYN_low]; decide⟩

theorem EncodesRow.andReg (x y : Reg) : EncodesRow.Statement (.andReg x y) := by
  intro _
  exact ⟨_, rfl, by simp only [OpcodeRow.matches, encode, formatXYN_low]; decide⟩

theorem EncodesRow.xorReg (x y : Reg) : EncodesRow.Statement (.xorReg x y) := by
  intro _
  exact ⟨_, rfl, by simp only [OpcodeRow.matches, encode, formatXYN_low]; decide⟩

theorem EncodesRow.addReg (x y : Reg) : EncodesRow.Statement (.addReg x y) := by
  intro _
  exact ⟨_, rfl, by simp only [OpcodeRow.matches, encode, formatXYN_low]; decide⟩

theorem EncodesRow.subReg (x y : Reg) : EncodesRow.Statement (.subReg x y) := by
  intro _
  exact ⟨_, rfl, by simp only [OpcodeRow.matches, encode, formatXYN_low]; decide⟩

theorem EncodesRow.shr (x : Reg) : EncodesRow.Statement (.shr x) := by
  intro _
  exact ⟨_, rfl, by simp only [OpcodeRow.matches, encode, formatXYN_low]; decide⟩

theorem EncodesRow.subnReg (x y : Reg) : EncodesRow.Statement (.subnReg x y) := by
  intro _
  exact ⟨_, rfl, by simp only [OpcodeRow.matches, encode, formatXYN_low]; decide⟩

theorem EncodesRow.shl (x : Reg) : EncodesRow.Statement (.shl x) := by
  intro _
  exact ⟨_, rfl, by simp only [OpcodeRow.matches, encode, formatXYN_low]; decide⟩

theorem EncodesRow.sneReg (x y : Reg) : EncodesRow.Statement (.sneReg x y) := by
  intro _
  exact ⟨_, rfl, by simp only [OpcodeRow.matches, encode, formatXYN_family]; decide⟩

theorem EncodesRow.ldI (nnn : Addr) : EncodesRow.Statement (.ldI nnn) := by
  intro _
  exact ⟨_, rfl, by simp only [OpcodeRow.matches, encode, formatA_family]; decide⟩

theorem EncodesRow.jpV0 (nnn : Addr) : EncodesRow.Statement (.jpV0 nnn) := by
  intro _
  exact ⟨_, rfl, by simp only [OpcodeRow.matches, encode, formatA_family]; decide⟩

theorem EncodesRow.rnd (x : Reg) (kk : Byte) : EncodesRow.Statement (.rnd x kk) := by
  intro _
  exact ⟨_, rfl, by simp only [OpcodeRow.matches, encode, formatXK_family]; decide⟩

theorem EncodesRow.drw (x y : Reg) (n : Nat) : EncodesRow.Statement (.drw x y n) := by
  intro _
  exact ⟨_, rfl, by simp only [OpcodeRow.matches, encode, formatXYN_family]; decide⟩

theorem EncodesRow.skp (x : Reg) : EncodesRow.Statement (.skp x) := by
  intro _
  exact ⟨_, rfl, by simp only [OpcodeRow.matches, encode, formatXK_low]; decide⟩

theorem EncodesRow.sknp (x : Reg) : EncodesRow.Statement (.sknp x) := by
  intro _
  exact ⟨_, rfl, by simp only [OpcodeRow.matches, encode, formatXK_low]; decide⟩

theorem EncodesRow.ldVxDt (x : Reg) : EncodesRow.Statement (.ldVxDt x) := by
  intro _
  exact ⟨_, rfl, by simp only [OpcodeRow.matches, encode, formatXK_low]; decide⟩

theorem EncodesRow.ldVxK (x : Reg) : EncodesRow.Statement (.ldVxK x) := by
  intro _
  exact ⟨_, rfl, by simp only [OpcodeRow.matches, encode, formatXK_low]; decide⟩

theorem EncodesRow.ldDtVx (x : Reg) : EncodesRow.Statement (.ldDtVx x) := by
  intro _
  exact ⟨_, rfl, by simp only [OpcodeRow.matches, encode, formatXK_low]; decide⟩

theorem EncodesRow.ldStVx (x : Reg) : EncodesRow.Statement (.ldStVx x) := by
  intro _
  exact ⟨_, rfl, by simp only [OpcodeRow.matches, encode, formatXK_low]; decide⟩

theorem EncodesRow.addI (x : Reg) : EncodesRow.Statement (.addI x) := by
  intro _
  exact ⟨_, rfl, by simp only [OpcodeRow.matches, encode, formatXK_low]; decide⟩

theorem EncodesRow.ldF (x : Reg) : EncodesRow.Statement (.ldF x) := by
  intro _
  exact ⟨_, rfl, by simp only [OpcodeRow.matches, encode, formatXK_low]; decide⟩

theorem EncodesRow.ldB (x : Reg) : EncodesRow.Statement (.ldB x) := by
  intro _
  exact ⟨_, rfl, by simp only [OpcodeRow.matches, encode, formatXK_low]; decide⟩

theorem EncodesRow.storeRegs (x : Reg) : EncodesRow.Statement (.storeRegs x) := by
  intro _
  exact ⟨_, rfl, by simp only [OpcodeRow.matches, encode, formatXK_low]; decide⟩

theorem EncodesRow.loadRegs (x : Reg) : EncodesRow.Statement (.loadRegs x) := by
  intro _
  exact ⟨_, rfl, by simp only [OpcodeRow.matches, encode, formatXK_low]; decide⟩

end Sys2Proof.Laws
end

