-- ==== Sys2Proof/Laws/Step.lean ====
section
/-! SUPPORT. What a step can do, said once, and that the host's placement of a word is what the next step fetches. -/

namespace Sys2Proof.Machine

/-- No meaning stops: every instruction answers a next state in every state. -/
theorem exec_answers_next (i : Instr) (s : State) : ∃ t, exec i s = .next t := by
  cases i <;> exact ⟨_, rfl⟩

theorem State.fetchWord_latch (s : State) (keys : Vector Bool 16) (r : Byte) :
    (s.latch keys r).fetchWord = s.fetchWord := rfl

/-- Everything a cycle in RUNNING can do: a fetch fault, an invalid word, or the decoded instruction. -/
theorem cycle_cases (keys : Vector Bool 16) (r : Byte) (s : State) :
    (0xFFF ≤ s.pc.toNat ∧ cycle keys r s = .next (s.latch keys r).raiseFetch) ∨
    (∃ w, s.pc.toNat < 0xFFF ∧ s.fetchWord = some w ∧
      ((∃ e, decode w = .error e ∧
          cycle keys r s = .next (((s.latch keys r).fetched w).raise .invalidOpcode)) ∨
       (∃ i, decode w = .ok i ∧ cycle keys r s = exec i ((s.latch keys r).fetched w)))) := by
  by_cases h : s.pc.toNat + 1 > 0xFFF
  · refine .inl ⟨by omega, ?_⟩
    have hf : (s.latch keys r).fetchWord = none := by
      rw [State.fetchWord_latch, State.fetchWord, if_pos h]
    simp [cycle, hf]
  · refine .inr ⟨wordOfBytes (s.mem.read s.pc.toNat) (s.mem.read (s.pc.toNat + 1)), by omega, ?_, ?_⟩
    · rw [State.fetchWord, if_neg h]
    · have hf : (s.latch keys r).fetchWord =
          some (wordOfBytes (s.mem.read s.pc.toNat) (s.mem.read (s.pc.toNat + 1))) := by
        rw [State.fetchWord_latch, State.fetchWord, if_neg h]
      cases hd : decode (wordOfBytes (s.mem.read s.pc.toNat) (s.mem.read (s.pc.toNat + 1))) with
      | error e => exact .inl ⟨e, rfl, by simp [cycle, hf, dispatch, hd]⟩
      | ok i => exact .inr ⟨i, rfl, by simp [cycle, hf, dispatch, hd]⟩

/-- Everything the engine's transition can do under the presented inputs. -/
theorem engineTransition_cases (inp : Inputs) (s : State) :
    (s.status = .running ∧ engineTransition inp s = cycle inp.keys inp.rnd s) ∨
    (s.status = .halted ∧ engineTransition inp s = .next s) ∨
    (∃ x, s.status = .waitKey x ∧ inp.keyEvent = none ∧ engineTransition inp s = .next s) ∨
    (∃ x k, s.status = .waitKey x ∧ inp.keyEvent = some k ∧
      engineTransition inp s = .next (s.keyDeliver k)) := by
  cases hs : s.status with
  | running => exact .inl ⟨rfl, by simp [engineTransition, stepTransition, hs]⟩
  | halted => exact .inr (.inl ⟨rfl, by simp [engineTransition, stepTransition, hs]⟩)
  | waitKey x =>
    cases hk : inp.keyEvent with
    | none => exact .inr (.inr (.inl ⟨x, rfl, rfl, by simp [engineTransition, stepTransition, hs, hk]⟩))
    | some k => exact .inr (.inr (.inr ⟨x, k, rfl, rfl, by simp [engineTransition, hs, hk]⟩))

/-- A step is the engine's transition on the state after the ticks. -/
theorem step_eq (s : State) :
    step s = engineTransition s.nextInputs (s.takeInputs.ticks s.nextInputs.ticks) := rfl

/-! ### `withFetchWord` -/

theorem wordOfBytes_bytesOfWord (w : Word) :
    wordOfBytes (w.extractLsb' 8 8) (w.extractLsb' 0 8) = w := by
  apply BitVec.eq_of_getLsbD_eq
  intro k hk
  simp only [wordOfBytes, BitVec.getLsbD_append, BitVec.getLsbD_extractLsb']
  interval_cases k <;> simp

/-- The placed word is what the next step fetches, and the state runs. -/
theorem State.placeWord_fetch (s : State) (w : Word) (hm : s.mem.wf = true) :
    (s.placeWord w).fetchWord = some w ∧ (s.placeWord w).status = .running := by
  have hstatus : s.ready.status = .running := by
    unfold State.ready; split <;> simp_all
  refine ⟨?_, hstatus⟩
  have key : ∀ a : Word, a.toNat + 1 ≤ 0xFFF →
      (({ s.ready with pc := a, mem := s.mem.writeBytes a.toNat (bytesOfWord w) } : State)).fetchWord = some w := by
    intro a ha
    have h0 := Memory.read_writeBytes_inside (a := a.toNat) (k := 0) (bytesOfWord w) hm (by simp [bytesOfWord])
      (by omega)
    have h1 := Memory.read_writeBytes_inside (a := a.toNat) (k := 1) (bytesOfWord w) hm (by simp [bytesOfWord])
      (by omega)
    simp only [Nat.add_zero] at h0
    simp only [State.fetchWord, h0, h1]
    rw [if_neg (by omega)]
    simp only [bytesOfWord, List.getElem_cons_zero, List.getElem_cons_succ]
    rw [wordOfBytes_bytesOfWord]
  unfold State.placeWord
  split
  · exact key _ (by decide)
  · exact key _ (by omega)

end Sys2Proof.Machine
end

