-- ==== Sys2Proof/Tests/Slice0.lean ====
section
/-! SUPPORT. The model's own tests. Every expected result is a vector of spec/95_test_vectors.md (A<n>, B<n> row, P<n>),
or a row of 30_encoding.md R85 filled in by hand. Each runs one step on a small state. At the end, a witness for the
hypotheses of every statement. -/

namespace Sys2Proof.Tests

open Sys2Proof.Machine

/-! ## Well-formedness -/

theorem test_wellFormed_refuses_height_16 : (Instr.drw 0 0 16).wellFormed = false := by decide

theorem test_wellFormed_accepts_height_15 : (Instr.drw 15 15 15).wellFormed = true := by decide

/-! ## Decoding (B1) -/

theorem test_decode_cls : decode 0x00E0 = .ok (.cls) := by decide

theorem test_decode_cls_ignored : decode 0x0AE0 = .ok (.cls) := by decide

theorem test_decode_ret : decode 0x00EE = .ok (.ret) := by decide

theorem test_decode_jp : decode 0x1ABC = .ok (.jp 0xABC) := by decide

theorem test_decode_call : decode 0x2ABC = .ok (.call 0xABC) := by decide

theorem test_decode_seImm : decode 0x3A7F = .ok (.seImm 0xA 0x7F) := by decide

theorem test_decode_sneImm : decode 0x4A7F = .ok (.sneImm 0xA 0x7F) := by decide

theorem test_decode_seReg : decode 0x5AB7 = .ok (.seReg 0xA 0xB) := by decide

theorem test_decode_ldImm : decode 0x6005 = .ok (.ldImm 0 0x05) := by decide

theorem test_decode_addImm : decode 0x7AFF = .ok (.addImm 0xA 0xFF) := by decide

theorem test_decode_ldReg : decode 0x8AB0 = .ok (.ldReg 0xA 0xB) := by decide

theorem test_decode_orReg : decode 0x8AB1 = .ok (.orReg 0xA 0xB) := by decide

theorem test_decode_andReg : decode 0x8AB2 = .ok (.andReg 0xA 0xB) := by decide

theorem test_decode_xorReg : decode 0x8AB3 = .ok (.xorReg 0xA 0xB) := by decide

theorem test_decode_addReg : decode 0x8AB4 = .ok (.addReg 0xA 0xB) := by decide

theorem test_decode_subReg : decode 0x8AB5 = .ok (.subReg 0xA 0xB) := by decide

theorem test_decode_shr : decode 0x8AB6 = .ok (.shr 0xA) := by decide

theorem test_decode_subnReg : decode 0x8AB7 = .ok (.subnReg 0xA 0xB) := by decide

theorem test_decode_shl : decode 0x8ABE = .ok (.shl 0xA) := by decide

theorem test_decode_sneReg : decode 0x9AB0 = .ok (.sneReg 0xA 0xB) := by decide

theorem test_decode_ldI : decode 0xA123 = .ok (.ldI 0x123) := by decide

theorem test_decode_jpV0 : decode 0xB123 = .ok (.jpV0 0x123) := by decide

theorem test_decode_rnd : decode 0xC10F = .ok (.rnd 1 0x0F) := by decide

theorem test_decode_drw : decode 0xD125 = .ok (.drw 1 2 5) := by decide

theorem test_decode_skp : decode 0xE29E = .ok (.skp 2) := by decide

theorem test_decode_sknp : decode 0xE2A1 = .ok (.sknp 2) := by decide

theorem test_decode_ldVxDt : decode 0xF307 = .ok (.ldVxDt 3) := by decide

theorem test_decode_ldVxK : decode 0xF30A = .ok (.ldVxK 3) := by decide

theorem test_decode_ldDtVx : decode 0xF315 = .ok (.ldDtVx 3) := by decide

theorem test_decode_ldStVx : decode 0xF318 = .ok (.ldStVx 3) := by decide

theorem test_decode_addI : decode 0xF31E = .ok (.addI 3) := by decide

theorem test_decode_ldF : decode 0xF329 = .ok (.ldF 3) := by decide

theorem test_decode_ldB : decode 0xF333 = .ok (.ldB 3) := by decide

theorem test_decode_storeRegs : decode 0xF355 = .ok (.storeRegs 3) := by decide

theorem test_decode_loadRegs : decode 0xF365 = .ok (.loadRegs 3) := by decide

theorem test_decode_invalid_family0 : decode 0x0123 = .error (.invalidOpcode 0x0123) := by decide

theorem test_decode_invalid_family8 : decode 0x8AB8 = .error (.invalidOpcode 0x8AB8) := by decide

theorem test_decode_invalid_familyE : decode 0xE29F = .error (.invalidOpcode 0xE29F) := by decide

theorem test_decode_invalid_familyF : decode 0xFFFF = .error (.invalidOpcode 0xFFFF) := by decide

/-- Big-endian: the bytes `60 05` are 0x6005 (B1, R54). -/
theorem test_decodeBytes : decodeBytes [0x60, 0x05, 0xEE] = .ok (.ldImm 0 5, [0xEE]) := by decide

theorem test_decodeTableWord : decodeTableWord 16 0x8014 = some (.addReg 0 1) := by decide

theorem test_encode_drw : encode (.drw 1 2 5) = 0xD125 := by decide

/-! ## One step -/

/-- What the host presents: no tick, key 10 alone down, no key event, the random byte 0xB7. -/
def quiet : Inputs := ⟨0, Vector.ofFn fun k : Fin 16 => decide (k = 10), none, 0xB7⟩

/-- The reset state with the first registers, `VF` and `I` set and one record of inputs. -/
def cpu (regs : List Byte) (vf : Byte) (i : Word) : State :=
  { State.reset with v := (setRegsFrom State.reset.v 0 regs).set 15 vf, i := i, inputs := [quiet] }

/-- What `f` says of the state after one step that runs the word `w` placed at `pc`. -/
def after {α : Type} (w : Nat) (s : State) (f : State → α) : Option α :=
  match step (s.withFetchWord 16 w) with
  | .next t => some (f t)
  | .fault _ => none
  | .refused _ => none

/-- The pixels that are 1 in a row, left to right. -/
def lit (y : Fin 32) (t : State) : List Nat :=
  (List.range 64).filter fun x => (t.fb[y]).getLsbD x

/-- `s` with one pixel at (0, 0) set. -/
def withPixel (s : State) : State := { s with fb := s.fb.xorPixel (0, 0) }

/-- `s` with bytes stored at `a`. -/
def bytesAt (s : State) (a : Nat) (us : List Byte) : State := { s with mem := s.mem.writeBytes a us }

/-- A4, B2. -/
theorem test_cls :
    after 0x00E0 (withPixel (cpu [] 7 0)) (fun t => (lit 0 t, t.reg VF)) = some ([], 7) := by decide

/-- B3 8. -/
theorem test_ret :
    after 0x00EE { cpu [] 0 0 with sp := 1, stack := State.reset.stack.set 0 0x0456 } (fun t => (t.sp, t.pc)) =
      some (0, 0x456) := by decide

/-- B3 9. -/
theorem test_ret_underflow :
    after 0x00EE (cpu [] 0 0) (fun t => (t.status, t.fault)) =
      some (.halted, some ⟨.stackUnderflow, some 0x00EE, 0x0202⟩) := by decide

/-- B3 3. -/
theorem test_jp :
    after 0x1FFF (cpu [] 0 0) (fun t => t.pc) = some 0xFFF := by decide

/-- B3 6. -/
theorem test_call :
    after 0x2ABC { cpu [] 0 0 with sp := 15 } (fun t => (t.stack[15], t.sp, t.pc)) = some (0x0202, 16, 0xABC) := by decide

/-- B3 7. -/
theorem test_call_overflow :
    after 0x2ABC { cpu [] 0 0 with sp := 16 } (fun t => (t.fault, t.sp, t.pc)) =
      some (some ⟨.stackOverflow, some 0x2ABC, 0x0202⟩, 16, 0x0202) := by decide

/-- B3 10. -/
theorem test_seImm :
    after 0x332A (cpu [0, 0, 0, 0x2A] 0 0) (fun t => t.pc) = some 0x204 := by decide

/-- B3 12. -/
theorem test_sneImm :
    after 0x432A (cpu [0, 0, 0, 0x2A] 0 0) (fun t => t.pc) = some 0x202 := by decide

/-- B3 15. -/
theorem test_seReg :
    after 0x5120 (cpu [0, 7, 8] 0 0) (fun t => t.pc) = some 0x202 := by decide

/-- B3 17. -/
theorem test_sneReg :
    after 0x9120 (cpu [0, 7, 8] 0 0) (fun t => t.pc) = some 0x204 := by decide

/-- B3 22: not masked. -/
theorem test_jpV0 :
    after 0xBFFF (cpu [0xFF] 0 0) (fun t => t.pc) = some 0x10FE := by decide

/-- B4. -/
theorem test_ldImm :
    after 0x6AFF (cpu [] 0 0) (fun t => t.reg 10) = some 0xFF := by decide

/-- B4: `VF` unchanged. -/
theorem test_addImm :
    after 0x7101 (cpu [0, 0xFF] 7 0) (fun t => (t.reg 1, t.reg VF)) = some (0x00, 7) := by decide

/-- B4. -/
theorem test_ldReg :
    after 0x8120 (cpu [0, 0, 0x9C] 0 0) (fun t => t.reg 1) = some 0x9C := by decide

/-- B4: `VF` unchanged. -/
theorem test_orReg :
    after 0x8121 (cpu [0, 0xF0, 0x0C] 7 0) (fun t => (t.reg 1, t.reg VF)) = some (0xFC, 7) := by decide

/-- B4. -/
theorem test_andReg :
    after 0x8122 (cpu [0, 0xF5, 0x3C] 0 0) (fun t => t.reg 1) = some 0x34 := by decide

/-- B4. -/
theorem test_xorReg :
    after 0x8123 (cpu [0, 0xF5, 0x3C] 0 0) (fun t => t.reg 1) = some 0xC9 := by decide

/-- B4. -/
theorem test_addReg :
    after 0x8124 (cpu [0, 0xC8, 0x64] 0 0) (fun t => (t.reg 1, t.reg 2, t.reg VF)) = some (0x2C, 0x64, 1) := by decide

/-- B4: the flag wins over the sum. -/
theorem test_addReg_vf :
    after 0x8F24 (cpu [0, 0, 2] 1 0) (fun t => t.reg VF) = some 0x00 := by decide

/-- B4. -/
theorem test_subReg :
    after 0x8125 (cpu [0, 0x03, 0x05] 0 0) (fun t => (t.reg 1, t.reg VF)) = some (0xFE, 0) := by decide

/-- B4. -/
theorem test_subReg_equal :
    after 0x8125 (cpu [0, 0xFF, 0xFF] 0 0) (fun t => (t.reg 1, t.reg VF)) = some (0x00, 1) := by decide

/-- B4: `V[y]` plays no part. -/
theorem test_shr :
    after 0x8126 (cpu [0, 0x55, 0xAA] 0 0) (fun t => (t.reg 1, t.reg 2, t.reg VF)) = some (0x2A, 0xAA, 1) := by decide

/-- B4. -/
theorem test_subnReg :
    after 0x8127 (cpu [0, 0x05, 0x03] 1 0) (fun t => (t.reg 1, t.reg 2, t.reg VF)) = some (0xFE, 0x03, 0) := by decide

/-- B4. -/
theorem test_shl :
    after 0x812E (cpu [0, 0xAA, 0x55] 0 0) (fun t => (t.reg 1, t.reg 2, t.reg VF)) = some (0x54, 0x55, 1) := by decide

/-- B5 2. -/
theorem test_ldI :
    after 0xAFFF (cpu [] 0 0) (fun t => t.i) = some 0x0FFF := by decide

/-- B4: rnd is 0xB7. -/
theorem test_rnd :
    after 0xC10F (cpu [] 0 0) (fun t => t.reg 1) = some 0x07 := by decide

/-- B2 3. -/
theorem test_drw_wraps :
    after 0xD121 (bytesAt (cpu [0, 60, 5] 7 0x300) 0x300 [0xFF]) (fun t => (lit 5 t, t.reg VF)) =
      some ([0, 1, 2, 3, 60, 61, 62, 63], 0) := by decide

/-- B2 7. -/
theorem test_drw_collides :
    after 0xD121 (withPixel (bytesAt (cpu [] 0 0x300) 0x300 [0xC0])) (fun t => (lit 0 t, t.reg VF)) =
      some ([1], 1) := by decide

/-- B6 1. -/
theorem test_skp :
    after 0xE29E (cpu [0, 0, 0x0A] 0 0) (fun t => t.pc) = some 0x204 := by decide

/-- B6 5, with the keys turned round. -/
theorem test_skp_up :
    after 0xE29E (cpu [] 0 0) (fun t => t.pc) = some 0x202 := by decide

/-- B6 4. -/
theorem test_sknp :
    after 0xE2A1 (cpu [0, 0, 0x0A] 0 0) (fun t => t.pc) = some 0x202 := by decide

/-- B6 7. -/
theorem test_ldVxDt :
    after 0xF107 { cpu [] 0 0 with dt := 0x3C } (fun t => t.reg 1) = some 0x3C := by decide

/-- B6 14. -/
theorem test_ldVxK :
    after 0xF30A (cpu [] 0 0) (fun t => (t.status, t.pc, t.reg 3)) = some (.waitKey 3, 0x202, 0) := by decide

/-- B6 8. -/
theorem test_ldDtVx :
    after 0xF015 (cpu [0x78] 0 0) (fun t => t.dt) = some 0x78 := by decide

/-- B6 9. -/
theorem test_ldStVx :
    after 0xF418 (cpu [0, 0, 0, 0, 2] 0 0) (fun t => (t.st, soundActive t)) = some (2, true) := by decide

/-- B5 5. -/
theorem test_addI :
    after 0xF21E (cpu [0, 0, 2] 7 0xFFFF) (fun t => (t.i, t.reg VF)) = some (0x0001, 7) := by decide

/-- B5 10: any `I`, no fault. -/
theorem test_ldF_completes :
    after 0xF329 (cpu [0, 0, 0, 0x10] 0 0) (fun t => (t.status, t.pc)) = some (.running, 0x202) := by decide

/-- B5 17, A7. -/
theorem test_ldB :
    after 0xF033 (cpu [234] 0 0x300) (fun t => t.mem.readBytes 0x300 3) = some [2, 3, 4] := by decide

/-- B5 20. -/
theorem test_ldB_fault :
    after 0xF033 (cpu [255] 0 0xFFE) (fun t => (t.fault, t.mem.readBytes 0xFFE 2)) =
      some (some ⟨.memoryOutOfRange, some 0xF033, 0x0202⟩, [0, 0]) := by decide

/-- B5 21. -/
theorem test_storeRegs :
    after 0xF255 (cpu [0x11, 0x22, 0x33, 0x44] 0 0x400) (fun t => (t.mem.readBytes 0x400 4, t.i)) =
      some ([0x11, 0x22, 0x33, 0], 0x400) := by decide

/-- B5 25. -/
theorem test_storeRegs_fault :
    after 0xF555 (cpu [1, 1, 1, 1, 1, 1] 0 0xFFB) (fun t => (t.status, t.mem.readBytes 0xFFB 5)) =
      some (.halted, [0, 0, 0, 0, 0]) := by decide

/-- B5 26. -/
theorem test_loadRegs :
    after 0xF265 (bytesAt (cpu [0, 0, 0, 9] 0 0x300) 0x300 [2, 3, 4, 5])
      (fun t => (t.reg 0, t.reg 1, t.reg 2, t.reg 3, t.i)) = some (2, 3, 4, 9, 0x300) := by decide

/-- B5 30: no wrap. -/
theorem test_loadRegs_fault :
    after 0xF165 (cpu [8, 9] 0 0xFFFF) (fun t => (t.status, t.reg 0, t.reg 1)) = some (.halted, 8, 9) := by decide

/-! ## The other transitions, and the cycle outside the instructions -/

/-- B7 3. -/
theorem test_invalid_word :
    after 0x8128 (cpu [] 0 0) (fun t => (t.status, t.fault)) =
      some (.halted, some ⟨.invalidOpcode, some 0x8128, 0x0202⟩) := by decide

/-- B3 3, the second step. -/
theorem test_fetch_fault :
    (match step { cpu [] 0 0 with pc := 0x0FFF } with
      | .next t => some (t.fault, t.pc)
      | _ => none) = some (some ⟨.memoryOutOfRange, none, 0x0FFF⟩, 0x0FFF) := by decide

/-- P6: a word stored by the program is the next one fetched. -/
theorem test_self_modifying :
    after 0xF155 (cpu [0x12, 0x02] 0 0x202) (fun t => (t.fetchWord, t.endOfRun)) = some (some 0x1202, true) := by decide

/-- B6 17. -/
theorem test_keyDeliver :
    (match step { cpu [] 0 0 with status := .waitKey 3, inputs := [⟨0, quiet.keys, some 0xB, 0⟩] } with
      | .next t => some (t.reg 3, t.status, t.pc)
      | _ => none) = some (0x0B, .running, 0x200) := by decide

/-- B6 10. -/
theorem test_tick :
    (match transition .tick { cpu [] 0 0 with dt := 2, st := 1 } with
      | .next t => some (t.dt, t.st, soundActive t)
      | _ => none) = some (1, 0, false) := by decide

/-- B6 13: nine ticks from 5. -/
theorem test_ticks : ({ cpu [] 0 0 with dt := 5 }.ticks 9).dt = 0 := by decide

/-- B7 9: ticks go on in HALTED. -/
theorem test_halted_ticks :
    (match step { cpu [] 0 0 with status := .halted, st := 3, inputs := [⟨1, quiet.keys, none, 0⟩] } with
      | .next t => some (t.st, t.pc, t.status)
      | _ => none) = some (2, 0x200, .halted) := by decide

/-- B7 12. -/
theorem test_load :
    (match transition (.load [0x12, 0x00]) State.reset with
      | .next t => some (t.mem.readBytes 0x200 3, t.endOfRun)
      | _ => none) = some ([0x12, 0x00, 0x00], true) := by decide

/-- R53: the row of digit A of the default table. -/
theorem test_default_glyph_A :
    (Config.defaultGlyphData.toList.drop 50).take 5 = [0xF0, 0x90, 0xF0, 0x90, 0x90] := rfl

/-! ## Witnesses: states and operands that meet the hypotheses of each statement, at the ends of its ranges -/

/-- A state with `I`, `sp` and `pc` chosen. -/
def atBounds (i : Word) (sp : Fin 17) (pc : Word) : State := { cpu [] 0 i with sp := sp, pc := pc }

/-- A state in a status, with no tick and no key event presented. -/
def inStatus (st : Status) : State := { cpu [] 0 0 with status := st }

/-- Masks of the operand forms: the first clause of each instruction's statement. -/
theorem witness_masks :
    (0x1ABC#16 &&& 0xF000 = 0x1000) ∧ (0x8AB4#16 &&& 0xF00F = 0x8004) ∧ (0x0AE0#16 &&& 0xF0FF = 0x00E0) ∧
    (0x0BEE#16 &&& 0xF0FF = 0x00EE) ∧ (0xF365#16 &&& 0xF0FF = 0xF065) ∧ (0xE29E#16 &&& 0xF0FF = 0xE09E) := by decide

theorem witness_DecodeEncodeRoundTrip :
    (Instr.drw 15 15 15).WellFormed ∧ (Instr.drw 0 0 0).WellFormed ∧ (Instr.jp 0xFFF).WellFormed := by decide

theorem witness_DecoderAgreesWithOpcodeMap :
    opcodeTable[22]? = some ⟨"DRW Vx,Vy,n", 0xF000, 0xD000⟩ ∧ 0xD125#16 &&& 0xF000 = 0xD000 := by decide

theorem witness_InvalidWordsAreThoseOfR86 :
    decode 0x0AE1 = .error (.invalidOpcode 0x0AE1) ∧ decode 0x812F = .error (.invalidOpcode 0x812F) ∧
    decode 0xE2A2 = .error (.invalidOpcode 0xE2A2) ∧ decode 0xF366 = .error (.invalidOpcode 0xF366) := by decide

theorem witness_IgnoredBitsDoNotAffectDecoding :
    (0x0FE0#16 &&& 0xF0FF = 0x00E0) ∧ (0x0FEE#16 &&& 0xF0FF = 0x00EE) ∧
    (0x5AB0#16 &&& 0xFFF0 = 0x5ABF#16 &&& 0xFFF0 ∧ 0x5AB0#16 &&& 0xF000 = 0x5000) ∧
    (0x9AB0#16 &&& 0xFFF0 = 0x9ABF#16 &&& 0xFFF0 ∧ 0x9AB0#16 &&& 0xF000 = 0x9000) ∧
    (0x8A06#16 &&& 0xFF0F = 0x8AF6#16 &&& 0xFF0F ∧ 0x8A06#16 &&& 0xF00F = 0x8006) ∧
    (0x8A0E#16 &&& 0xFF0F = 0x8AFE#16 &&& 0xFF0F ∧ 0x8A0E#16 &&& 0xF00F = 0x800E) := by decide

theorem witness_StepTransitionIsTheCycle :
    (inStatus .halted).status = .halted ∧ (inStatus (.waitKey 3)).status = .waitKey 3 ∧
    ((atBounds 0 0 0xFFF).status = .running ∧ (atBounds 0 0 0xFFF).pc.toNat + 1 > 0xFFF) ∧
    ((atBounds 0 0 0xFFE).status = .running ∧ (atBounds 0 0 0xFFE).pc.toNat + 1 ≤ 0xFFF) ∧
    (∃ w : Word, w = (atBounds 0 0 0xFFE).mem.read 0xFFE ++ (atBounds 0 0 0xFFE).mem.read 0xFFF ∧
      decode w = .error (.invalidOpcode 0)) ∧
    (∃ w : Word, w = (bytesAt (cpu [] 0 0) 0xFFE [0x60, 0x05]).mem.read 0xFFE ++
        (bytesAt (cpu [] 0 0) 0xFFE [0x60, 0x05]).mem.read 0xFFF ∧ decode w = .ok (.ldImm 0 5)) :=
  ⟨rfl, rfl, by decide, by decide, ⟨_, rfl, by decide⟩, ⟨_, rfl, by decide⟩⟩

/-- A state that is about to run `LD V0,5` at the last address from which a word can be fetched. -/
def lastWord : State := bytesAt (atBounds 0 0 0xFFE) 0xFFE [0x60, 0x05]

theorem witness_StepRunsDecodedInstruction :
    lastWord.nextInputs = quiet ∧ lastWord.status = .running ∧ lastWord.pc.toNat + 1 ≤ 0xFFF ∧
    decode (lastWord.mem.read lastWord.pc.toNat ++ lastWord.mem.read (lastWord.pc.toNat + 1)) =
      .ok (.ldImm 0 5) :=
  ⟨rfl, rfl, by decide, by decide⟩

theorem witness_DecodedOperationIsAppliedOnce :
    lastWord.status = .running ∧ lastWord.pc.toNat + 1 ≤ 0xFFF ∧
    decode (lastWord.mem.read lastWord.pc.toNat ++ lastWord.mem.read (lastWord.pc.toNat + 1)) =
      .ok (.ldImm 0 5) :=
  ⟨rfl, by decide, by decide⟩

theorem witness_StackFaultsExactlyWhen :
    State.reset.status ≠ .halted ∧ (atBounds 0 16 0).status ≠ .halted ∧
    (∃ t, exec (.call 0) (atBounds 0 16 0) = .next t ∧ t.status = .halted) ∧
    (∃ u, exec .ret State.reset = .next u ∧ u.status = .halted) :=
  ⟨by decide, by decide, ⟨_, rfl, by decide⟩, ⟨_, rfl, by decide⟩⟩

theorem witness_ChosenInputsGiveChosenTransitions :
    (∀ x, (inStatus .running).status ≠ .waitKey x) ∧ (∀ x, (inStatus .halted).status ≠ .waitKey x) ∧
    (some 0xB : Option Key) = some 0xB ∧ (inStatus (.waitKey 3)).status = .waitKey 3 := by decide

theorem witness_FaultingInstructionChangesNothingElse :
    State.reset.status ≠ .halted ∧ ∃ t, exec .ret State.reset = .next t ∧ t.status = .halted :=
  ⟨by decide, _, rfl, by decide⟩

theorem witness_ExecuteTimeFaultsExactlyWhen :
    State.reset.status ≠ .halted ∧
    (∃ t r, exec .ret State.reset = .next t ∧ t.status = .halted ∧ t.fault = some r) ∧
    (∃ t r, exec (.call 0) (atBounds 0 16 0) = .next t ∧ t.status = .halted ∧ t.fault = some r) ∧
    (∃ t, exec (.call 0) (atBounds 0 15 0) = .next t ∧ t.status ≠ .halted) ∧
    (∃ t r, exec (.drw 0 0 15) (atBounds 0xFF2 0 0) = .next t ∧ t.status = .halted ∧ t.fault = some r) ∧
    (∃ t r, exec (.ldB 0) (atBounds 0xFFE 0 0) = .next t ∧ t.status = .halted ∧ t.fault = some r) ∧
    (∃ t r, exec (.storeRegs 15) (atBounds 0xFF1 0 0) = .next t ∧ t.status = .halted ∧ t.fault = some r) ∧
    (∃ t r, exec (.loadRegs 1) (atBounds 0xFFF 0 0) = .next t ∧ t.status = .halted ∧ t.fault = some r) :=
  ⟨by decide, ⟨_, _, rfl, by decide, rfl⟩, ⟨_, _, rfl, by decide, rfl⟩, ⟨_, rfl, by decide⟩,
   ⟨_, _, rfl, by decide, rfl⟩, ⟨_, _, rfl, by decide, rfl⟩, ⟨_, _, rfl, by decide, rfl⟩, ⟨_, _, rfl, by decide, rfl⟩⟩

/-- Each conclusion of the frame rule has a case in which its premise holds. -/
theorem witness_FrameRuleOverAllInstructions :
    (∃ t, exec (.ldI 1) State.reset = .next t ∧ t.i ≠ State.reset.i) ∧
    (∃ t, exec (.call 0) State.reset = .next t ∧ t.sp ≠ State.reset.sp) ∧
    (∃ t, exec (.drw 0 0 1) (bytesAt (cpu [] 0 0x300) 0x300 [0x80]) = .next t ∧
      t.fb ≠ (bytesAt (cpu [] 0 0x300) 0x300 [0x80]).fb) ∧
    (∃ t, exec (.ldB 0) (cpu [234] 0 0x300) = .next t ∧ t.mem.read 0x300 ≠ (cpu [234] 0 0x300).mem.read 0x300) ∧
    (∃ t, exec (.ldDtVx 0) (cpu [1] 0 0) = .next t ∧ t.dt ≠ 0) ∧
    (∃ t, exec (.ldStVx 0) (cpu [1] 0 0) = .next t ∧ t.st ≠ 0) ∧
    (∃ t, exec (.shr 0) (cpu [1] 0 0) = .next t ∧ t.reg VF ≠ (cpu [1] 0 0).reg VF) :=
  ⟨⟨_, rfl, by decide⟩, ⟨_, rfl, by decide⟩, ⟨_, rfl, by decide⟩, ⟨_, rfl, by decide⟩, ⟨_, rfl, by decide⟩,
   ⟨_, rfl, by decide⟩, ⟨_, rfl, by decide⟩⟩

theorem witness_FlagInstructionsLeaveZeroOrOne :
    State.reset.status ≠ .halted ∧ (∃ t, exec (.addReg 15 15) State.reset = .next t ∧ t.status ≠ .halted) ∧
    (∃ t, exec (.drw 0 0 0) State.reset = .next t ∧ t.status ≠ .halted) :=
  ⟨by decide, ⟨_, rfl, by decide⟩, ⟨_, rfl, by decide⟩⟩

theorem witness_DrwTogglesTheSpritePixels :
    (15 < 16 ∧ (atBounds 0xFF1 0 0).i.toNat + 15 - 1 ≤ 0xFFF) ∧ (15 < 16 ∧ (atBounds 0xFF2 0 0).i.toNat + 15 - 1 > 0xFFF) ∧
    (atBounds 0xFFF 0 0).i.toNat + 1 - 1 ≤ 0xFFF ∧ (atBounds 0x1000 0 0).i.toNat + 1 - 1 > 0xFFF ∧
    (withPixel (cpu [] 0 0)).fb.get (0, 0) = true := by decide

theorem witness_DrawingTwiceRestoresTheFramebuffer :
    15 < 16 ∧ (14 : Reg) ≠ VF ∧ (0 : Reg) ≠ VF ∧ (atBounds 0xFF1 0 0).i.toNat + 15 - 1 ≤ 0xFFF := by decide

theorem witness_RetPopsTheReturnAddress :
    0 < (atBounds 0 1 0).sp.val ∧ 0 < (atBounds 0 16 0).sp.val ∧ (atBounds 0 0 0).sp.val = 0 ∧
    (atBounds 0 16 0).PcBounded := by decide

theorem witness_CallPushesTheAdvancedPc :
    (atBounds 0 0 0).sp.val < 16 ∧ (atBounds 0 15 0).sp.val < 16 ∧ (atBounds 0 16 0).sp.val = 16 := by decide

theorem witness_CallThenRetRestoresPcAndSp : (atBounds 0 15 0x202).sp.val < 16 := by decide

/-- A destination that is not `VF`, in the flag-writing statements, and a register that is neither. -/
theorem witness_flag_destinations : (14 : Reg) ≠ VF ∧ (0 : Reg) ≠ 14 ∧ (0 : Reg) ≠ VF := by decide

theorem witness_LdFPointsAtTheGlyph :
    ((cpu [15] 0 0).reg 0).toNat ≤ 15 ∧ ((cpu [16] 0 0).reg 0).toNat > 15 ∧ ((cpu [255] 0 0).reg 0).toNat > 15 := by
  decide

theorem witness_LdBStoresDecimalDigits :
    ((atBounds 0xFFD 0 0).mem.wf = true ∧ (atBounds 0xFFD 0 0).i.toNat + 2 ≤ 0xFFF) ∧
    ((atBounds 0xFFE 0 0).mem.wf = true ∧ (atBounds 0xFFE 0 0).i.toNat + 2 > 0xFFF) := by decide

theorem witness_block_transfers :
    ((atBounds 0xFF0 0 0).mem.wf = true ∧ (atBounds 0xFF0 0 0).i.toNat + (15 : Reg).val ≤ 0xFFF) ∧
    ((atBounds 0xFF1 0 0).mem.wf = true ∧ (atBounds 0xFF1 0 0).i.toNat + (15 : Reg).val > 0xFFF) ∧
    (atBounds 0xFFF 0 0).i.toNat + (0 : Reg).val ≤ 0xFFF ∧ (atBounds 0xFFFF 0 0).i.toNat + (1 : Reg).val > 0xFFF := by
  decide

theorem witness_NextFetchSeesTheStore :
    (atBounds 0x200 0 0x202).mem.wf = true ∧ (atBounds 0x200 0 0x202).i.toNat + (3 : Reg).val ≤ 0xFFF ∧
    (3 : Reg).val = (2 : Reg).val + 1 ∧ (3 : Reg).val ≤ (3 : Reg).val ∧
    (atBounds 0x200 0 0x202).pc.toNat = (atBounds 0x200 0 0x202).i.toNat + (2 : Reg).val := by decide

theorem witness_KeySkips :
    (cpu [15] 0 0).keysnap[((cpu [15] 0 0).reg 0).toNat]? = some false ∧
    ({ cpu [15] 0 0 with keysnap := Vector.replicate 16 true } : State).keysnap[((cpu [15] 0 0).reg 0).toNat]? =
      some true ∧ ((cpu [16] 0 0).reg 0).toNat > 15 := by decide

theorem witness_KeyDeliverCompletesTheWait :
    (inStatus (.waitKey 15)).status = .waitKey 15 ∧ (∀ x, (inStatus .running).status ≠ .waitKey x) ∧
    (∀ x, (inStatus .halted).status ≠ .waitKey x) := by decide

theorem witness_OnlyLdVxKEntersTheWait :
    State.reset.status = .running ∧ ∃ t, exec (.ldVxK 15) State.reset = .next t ∧ t.status = .waitKey 15 :=
  ⟨rfl, _, rfl, rfl⟩

theorem witness_WaitingStepChangesTimersOnly :
    (inStatus (.waitKey 3)).status = .waitKey 3 ∧ (inStatus (.waitKey 3)).nextInputs.keyEvent = none := by decide

theorem witness_HaltedIsTerminal : (inStatus .halted).status = .halted := by decide

theorem witness_LoadPlacesTheProgram :
    State.reset.mem.wf = true ∧ State.reset.loaded = false ∧ (List.replicate 3584 (0xFF : Byte)).length ≤ 3584 :=
  ⟨rfl, rfl, by rw [List.length_replicate]⟩

theorem witness_LoadRejections :
    State.reset.loaded = false ∧ (List.replicate 3585 (0xFF : Byte)).length > 3584 ∧
    (List.replicate 3584 (0xFF : Byte)).length = 3584 ∧ ({ State.reset with loaded := true } : State).loaded = true :=
  ⟨rfl, by rw [List.length_replicate]; omega, List.length_replicate, rfl⟩

theorem witness_SelfJumpIsAnEndlessLoop : (bytesAt (cpu [] 0 0) 0x200 [0x12, 0x00]).endOfRun = true := by decide

theorem witness_StepKeepsTheInvariant :
    (cpu [] 0 0).Inv ∧ (∃ t, step (cpu [] 0 0) = .next t) ∧
    (inStatus .running).Inv ∧ ({ inStatus (.waitKey 3) with ir := 0xF30A } : State).Inv ∧
    ({ inStatus .halted with fault := some ⟨.stackUnderflow, some 0x00EE, 0x0200⟩ } : State).Inv :=
  ⟨by decide, ⟨_, rfl⟩, by decide, by decide, by decide⟩

theorem witness_TransitionsKeepTheInvariant :
    State.reset.Inv ∧ (∃ t, transition (.step quiet.keys 0) State.reset = .next t) ∧
    (∃ t, transition (.load [0x12, 0x00]) State.reset = .next t) ∧
    (∃ t, transition .construct State.reset = .next t) :=
  ⟨by decide, ⟨_, rfl⟩, ⟨_, rfl⟩, ⟨_, rfl⟩⟩

end Sys2Proof.Tests
end

section
/-! PROOFS. The family of 10_state.md: the invariant at reset and under a step, and the value a flag instruction leaves
in `VF`. -/

namespace Sys2Proof.Machine

/-! ### What an instruction can do to `pc` and the call stack -/

theorem State.skipIf_pc_cases (s : State) (c : Bool) : (s.skipIf c).pc = s.pc ∨ (s.skipIf c).pc = s.pc + 2 := by
  cases c
  · exact .inl rfl
  · exact .inr rfl

/-- Everything an instruction can do to `pc` and the call stack: leave the stack alone and keep `pc`, skip or jump; pop
the new `pc`; or push the old one. -/
theorem exec_control_cases {i : Instr} {s t : State} (h : exec i s = .next t) :
    (t.stack = s.stack ∧ t.sp = s.sp ∧
      (t.pc = s.pc ∨ t.pc = s.pc + 2 ∨ (∃ nnn, t.pc = addrWord nnn) ∨ ∃ nnn u, t.pc = addrWord nnn + byteWord u)) ∨
    (∃ hsp : 0 < s.sp.val, i = .ret ∧
      t = { s with pc := s.stack[s.sp.val - 1]'(by omega), sp := ⟨s.sp.val - 1, by omega⟩ }) ∨
    (∃ nnn, ∃ hsp : s.sp.val < 16, i = .call nnn ∧
      t = { s with pc := addrWord nnn, stack := s.stack.set s.sp.val s.pc, sp := ⟨s.sp.val + 1, by omega⟩ }) := by
  cases i <;> simp only [exec] at h
  case ret =>
    simp only [execRet, Host.Outcome.next.injEq] at h
    obtain ⟨-, e⟩ | ⟨hsp, e⟩ := s.pop_cases <;> rw [e] at h <;> subst h
    · exact .inl ⟨rfl, rfl, .inl rfl⟩
    · exact .inr (.inl ⟨hsp, rfl, rfl⟩)
  case call nnn =>
    simp only [execCall, Host.Outcome.next.injEq] at h
    obtain ⟨-, e⟩ | ⟨hsp, e⟩ := s.push_cases s.pc <;> rw [e] at h <;> subst h
    · exact .inl ⟨rfl, rfl, .inl rfl⟩
    · exact .inr (.inr ⟨nnn, hsp, rfl, rfl⟩)
  case jp nnn => cases h; exact .inl ⟨rfl, rfl, .inr (.inr (.inl ⟨nnn, rfl⟩))⟩
  case jpV0 nnn => cases h; exact .inl ⟨rfl, rfl, .inr (.inr (.inr ⟨nnn, _, rfl⟩))⟩
  case seImm | sneImm | seReg | sneReg =>
    cases h; exact .inl ⟨rfl, rfl, (State.skipIf_pc_cases _ _).imp_right .inl⟩
  case skp x =>
    cases h; left
    obtain ⟨_, e⟩ | ⟨_, e⟩ := s.keyTest_cases x Config.skpOutOfRange <;> rw [e] <;>
      exact ⟨rfl, rfl, (State.skipIf_pc_cases _ _).imp_right .inl⟩
  case sknp x =>
    cases h; left
    obtain ⟨_, e⟩ | ⟨_, e⟩ := s.keyTest_cases x Config.sknpOutOfRange <;> rw [e] <;>
      exact ⟨rfl, rfl, (State.skipIf_pc_cases _ _).imp_right .inl⟩
  case drw | ldF | ldB | storeRegs | loadRegs => cases h; left; split <;> exact ⟨rfl, rfl, .inl rfl⟩
  all_goals cases h; exact .inl ⟨rfl, rfl, .inl rfl⟩

/-! ### `pc` and return addresses stay bounded -/

theorem toNat_addrWord_le (nnn : Addr) : (addrWord nnn).toNat ≤ 0xFFF := by
  simp only [addrWord, BitVec.toNat_setWidth]
  omega

/-- Neither the advance of a fetch nor a skip after it wraps. -/
theorem toNat_add_two {a : Word} (ha : a.toNat ≤ 0x1000) : (a + 2).toNat = a.toNat + 2 :=
  BitVec.toNat_add_of_lt (show a.toNat + 2 < 2 ^ 16 by omega)

/-- `JP V0` reaches 0xFFF + 0xFF at most, the bound of R23. -/
theorem toNat_addrWord_add_byteWord_le (nnn : Addr) (u : Byte) : (addrWord nnn + byteWord u).toNat ≤ 0x10FE := by
  simp only [addrWord, byteWord, BitVec.toNat_add, BitVec.toNat_setWidth]
  omega

/-- An instruction fetched from the space finds `pc` at 0x1000 at most, so it pushes no larger return address and skips
no further than 0x1002 (R23, R131). -/
theorem exec_keeps_pcBounded {i : Instr} {s t : State} (h : exec i s = .next t) (hb : s.PcBounded)
    (hpc : s.pc.toNat ≤ 0x1000) : t.PcBounded := by
  obtain ⟨-, hstack⟩ := hb
  obtain ⟨estack, esp, hjump⟩ | ⟨hsp, -, rfl⟩ | ⟨nnn, hsp, -, rfl⟩ := exec_control_cases h
  · refine ⟨?_, by rw [estack, esp]; exact hstack⟩
    obtain e | e | ⟨nnn, e⟩ | ⟨nnn, u, e⟩ := hjump <;> rw [e]
    · omega
    · rw [toNat_add_two hpc]; omega
    · exact (toNat_addrWord_le nnn).trans (by decide)
    · exact toNat_addrWord_add_byteWord_le nnn u
  · have hpop := hstack ⟨s.sp.val - 1, by omega⟩ (by simp; omega)
    refine ⟨hpop.trans (by decide), fun j hj => hstack j ?_⟩
    simp only at hj
    omega
  · refine ⟨(toNat_addrWord_le nnn).trans (by decide), fun j hj => ?_⟩
    simp only [Fin.getElem_fin, Vector.getElem_set]
    split
    · exact hpc
    · next hne => exact hstack j (by simp only at hj; omega)

/-! ### The status stays accounted for -/

/-- In RUNNING the status is accounted for exactly when no fault is recorded (R30). -/
theorem State.statusAccounted_of_running {s : State} (hs : s.status = .running) :
    s.statusAccounted = true ↔ s.fault = none := by
  cases hf : s.fault <;> simp [State.statusAccounted, hs, hf]

/-- In WAIT_KEY no fault is recorded and the fetched word is the `LD Vx,K` of the wait (R219). -/
theorem State.statusAccounted_of_waitKey {s : State} {x : Reg} (hs : s.status = .waitKey x) :
    s.statusAccounted = true ↔ s.fault = none ∧ awaitsKey s.ir x = true := by
  cases hf : s.fault <;> simp [State.statusAccounted, hs, hf]

theorem State.statusAccounted_raiseFetch {s : State} (hpc : 0xFFF ≤ s.pc.toNat) :
    s.raiseFetch.statusAccounted = true := by
  simp [State.statusAccounted, State.raiseFetch, FaultRecord.accounts, hpc]

theorem State.statusAccounted_raise_invalidOpcode {s : State} {e : DecodeError} (hd : decode s.ir = .error e) :
    (s.raise .invalidOpcode).statusAccounted = true := by
  simp [State.statusAccounted, FaultRecord.accounts, hd]

/-- A raise freezes the registers that the fault's condition reads, so the condition holds of the halted state too. -/
theorem executeFault_raise (s : State) (k : Fault) (i : Instr) : executeFault (s.raise k) i = executeFault s i := by
  cases i <;> rfl

theorem State.statusAccounted_raise {s : State} {i : Instr} {k : Fault} (hd : decode s.ir = .ok i)
    (hk : executeFault s i = some k) : (s.raise k).statusAccounted = true := by
  simp [State.statusAccounted, FaultRecord.accounts, hd, executeFault_raise, hk]

/-- An instruction that runs in RUNNING from the fetched word accounts for the status it leaves. -/
theorem exec_keeps_statusAccounted {i : Instr} {s t : State} (h : exec i s = .next t) (hd : decode s.ir = .ok i)
    (hrun : s.status = .running) (hacc : s.statusAccounted = true) : t.statusAccounted = true := by
  have hfault := (State.statusAccounted_of_running hrun).mp hacc
  obtain ⟨estatus, efault⟩ | ⟨x, rfl, rfl⟩ | ⟨k, hk, rfl⟩ := exec_status_cases h
  · exact (State.statusAccounted_of_running (estatus.trans hrun)).mpr (efault.trans hfault)
  · exact (State.statusAccounted_of_waitKey rfl).mpr ⟨hfault, by simp [awaitsKey, hd]⟩
  · exact State.statusAccounted_raise hd hk

/-! ### The invariant under the transitions of a step -/

theorem exec_keeps_mem_wf {i : Instr} {s t : State} (h : exec i s = .next t) (hm : s.mem.wf = true) :
    t.mem.wf = true := by
  obtain e | ⟨a, us, e⟩ := exec_mem_cases h <;> rw [e]
  · exact hm
  · exact Memory.wf_writeBytes us hm

theorem cycle_keeps_inv {keys : Vector Bool 16} {r : Byte} {s t : State} (hrun : s.status = .running) (hinv : s.Inv)
    (h : cycle keys r s = .next t) : t.Inv := by
  obtain ⟨hmem, hb, hacc⟩ := hinv
  have hfault : s.fault = none := (State.statusAccounted_of_running hrun).mp hacc
  obtain ⟨hpc, e⟩ | ⟨w, hpc, -, hw⟩ := cycle_cases keys r s
  · cases e.symm.trans h
    exact ⟨hmem, hb, State.statusAccounted_raiseFetch hpc⟩
  · have hpc' : ((s.latch keys r).fetched w).pc.toNat ≤ 0x1000 := by
      rw [State.fetched_pc, State.latch_pc, toNat_add_two (by omega)]
      omega
    have hb' : ((s.latch keys r).fetched w).PcBounded := ⟨hpc'.trans (by decide), hb.2⟩
    obtain ⟨err, hd, e⟩ | ⟨i, hd, e⟩ := hw
    · cases e.symm.trans h
      exact ⟨hmem, hb', State.statusAccounted_raise_invalidOpcode hd⟩
    · have hacc' : ((s.latch keys r).fetched w).statusAccounted = true :=
        (State.statusAccounted_of_running (s := (s.latch keys r).fetched w) hrun).mpr hfault
      have hexec := e.symm.trans h
      exact ⟨exec_keeps_mem_wf hexec hmem, exec_keeps_pcBounded hexec hb' hpc',
        exec_keeps_statusAccounted hexec hd hrun hacc'⟩

theorem State.keyDeliver_waitKey {s : State} {x : Reg} (hs : s.status = .waitKey x) (k : Key) :
    s.keyDeliver k = { s.setReg x (BitVec.ofNat 8 k.val) with status := .running } := by
  simp [State.keyDeliver, hs]

theorem State.inv_keyDeliver {s : State} {x : Reg} (hs : s.status = .waitKey x) (hinv : s.Inv) (k : Key) :
    (s.keyDeliver k).Inv := by
  obtain ⟨hmem, hb, hacc⟩ := hinv
  rw [State.keyDeliver_waitKey hs]
  exact ⟨hmem, hb, (State.statusAccounted_of_running rfl).mpr ((State.statusAccounted_of_waitKey hs).mp hacc).1⟩

theorem engineTransition_keeps_inv {inp : Inputs} {s t : State} (hinv : s.Inv)
    (h : engineTransition inp s = .next t) : t.Inv := by
  obtain ⟨hrun, e⟩ | ⟨-, e⟩ | ⟨x, -, -, e⟩ | ⟨x, k, hs, -, e⟩ := engineTransition_cases inp s <;> rw [e] at h
  · exact cycle_keeps_inv hrun hinv h
  · cases h; exact hinv
  · cases h; exact hinv
  · cases h; exact State.inv_keyDeliver hs hinv k

/-- The invariant reads neither a timer nor what the host presents. -/
theorem State.inv_takeInputs_ticks {s : State} (hinv : s.Inv) (n : Nat) : (s.takeInputs.ticks n).Inv := by
  unfold State.takeInputs
  split <;> exact hinv

/-- Settles O59: the step is the engine's transition after the ticks, and the cycle, the one transition that computes,
keeps each of the three parts of the invariant. -/
theorem stepKeepsTheInvariant : Obligations.StepKeepsTheInvariant := by
  intro s t hinv h
  rw [step_eq] at h
  exact engineTransition_keeps_inv (State.inv_takeInputs_ticks hinv _) h

/-- Settles O58: reset memory lists no cell, `pc` is 0x200, no return address is held, and the machine is RUNNING with
no fault recorded. -/
theorem invariantHoldsAtReset : Obligations.InvariantHoldsAtReset :=
  ⟨State.reset_mem_wf, ⟨by decide, fun _ hj => absurd hj (Nat.not_lt_zero _)⟩,
    (State.statusAccounted_of_running rfl).mpr rfl⟩

/-! ### The flag register -/

theorem flagByte_eq_zero_or_one (c : Bool) : flagByte c = 0 ∨ flagByte c = 1 := by
  cases c
  · exact .inl rfl
  · exact .inr rfl

/-- The flag is written last, also with `VF` as the destination (D8, R104). -/
theorem State.setWithFlag_VF_zero_or_one (s : State) (x : Reg) (u : Byte) (c : Bool) :
    (s.setWithFlag x u c).reg VF = 0 ∨ (s.setWithFlag x u c).reg VF = 1 := by
  rw [State.reg_setWithFlag, if_pos rfl]
  exact flagByte_eq_zero_or_one c

theorem State.drawSprite_VF_zero_or_one (s : State) (x y : Reg) (n : Nat) :
    (s.drawSprite x y n).reg VF = 0 ∨ (s.drawSprite x y n).reg VF = 1 := by
  unfold State.drawSprite
  rw [State.reg_setReg_same]
  exact flagByte_eq_zero_or_one _

/-- Settles O16: the five ALU instructions write their flag last, and so does a draw that passes its bound test. -/
theorem flagInstructionsLeaveZeroOrOne : Obligations.FlagInstructionsLeaveZeroOrOne := by
  rintro i s t h - hdone ⟨x, y, hi⟩
  obtain rfl | rfl | rfl | rfl | rfl | ⟨n, rfl⟩ := hi <;> cases h
  case inr.inr.inr.inr.inr.refl =>
    split
    · next hbound => exact absurd (by rw [if_pos hbound]; rfl) hdone
    · exact s.drawSprite_VF_zero_or_one x y n
  all_goals exact State.setWithFlag_VF_zero_or_one ..

end Sys2Proof.Machine
end

section
/-! PROOFS. The family of 20_memory.md: what `LD [I],Vx` leaves in memory, read back byte by byte and by the next
fetch. -/

namespace Sys2Proof.Machine

/-! ### The bytes that `LD [I],Vx` stores -/

@[simp] theorem State.length_regsUpTo (s : State) (x : Reg) : (s.regsUpTo x).length = x.val + 1 := by
  rw [State.regsUpTo, List.length_take, Vector.length_toList]
  omega

@[simp] theorem State.getElem_regsUpTo (s : State) (x j : Reg) (h : j.val < (s.regsUpTo x).length) :
    (s.regsUpTo x)[j.val] = s.reg j := by
  simp [State.regsUpTo, State.reg]

/-- Inside the bound of R59 `LD [I],Vx` is a store of the registers. -/
theorem exec_storeRegs_of_le {x : Reg} {s : State} (h : s.i.toNat + x.val ≤ 0xFFF) :
    exec (.storeRegs x) s = .next (s.store (s.regsUpTo x)) := by
  have hin : s.outOfRange x.val = false := by simpa [State.outOfRange, State.addrOf] using h
  simp [exec, execStoreRegs, hin]

/-- The byte that `LD [I],Vx` leaves at `I + j` (R174). -/
theorem State.read_store_regsUpTo {x j : Reg} {s : State} (hm : s.mem.wf = true) (h : s.i.toNat + x.val ≤ 0xFFF)
    (hj : j.val ≤ x.val) : (s.store (s.regsUpTo x)).mem.read (s.i.toNat + j.val) = s.reg j := by
  have hlen : j.val < (s.regsUpTo x).length := by rw [State.length_regsUpTo]; omega
  exact (Memory.read_writeBytes_inside (a := s.i.toNat) _ hm hlen (by omega)).trans (s.getElem_regsUpTo x j hlen)

/-! ### The fetch after the store -/

/-- Inside the space a fetch is the two bytes at `pc`, the first one high (R101, R54). -/
theorem State.fetchWord_of_lt {s : State} (h : s.pc.toNat < 0xFFF) :
    s.fetchWord = some (s.mem.read s.pc.toNat ++ s.mem.read (s.pc.toNat + 1)) :=
  if_neg (by omega)

/-- Settles O42: the store leaves `pc` alone, so the next fetch reads the bytes at `I + j` and `I + j + 1`, which now
hold the registers `j` and `k`. -/
theorem nextFetchSeesTheStore : Obligations.NextFetchSeesTheStore := by
  intro x s j k hm hbound hjk hkx hpc
  refine ⟨_, exec_storeRegs_of_le hbound, ?_⟩
  have hhigh := State.read_store_regsUpTo (j := j) hm hbound (by omega)
  have hlow := State.read_store_regsUpTo (j := k) hm hbound hkx
  rw [State.fetchWord_of_lt (by rw [State.store_pc]; omega), State.store_pc, hpc, hhigh,
    Nat.add_assoc, ← hjk, hlow]

end Sys2Proof.Machine
end

section
/-! PROOFS. The family of 30_encoding.md: the decoder reads back what the encoder writes, agrees with the opcode map R85
row by row, and rejects exactly the words of R86. -/

namespace Sys2Proof

/-! ### Decode after encode -/

/-- Settles O1: a format lays out the family, the sub-opcode and every operand in the fields that the decoder reads
back; the height of a sprite fits its field as the instruction is well-formed. -/
theorem decodeEncodeRoundTrip : Obligations.DecodeEncodeRoundTrip := by
  intro i hi
  cases i
  case jp | call | ldI | jpV0 => simp [encode, decode, fieldOp_formatA, fieldNNN_formatA]
  case cls | ret | seImm | sneImm | ldImm | addImm | rnd | skp | sknp | ldVxDt | ldVxK | ldDtVx | ldStVx | addI | ldF |
      ldB | storeRegs | loadRegs =>
    simp [encode, decode, decodeFamily0, decodeFamilyE, decodeFamilyF, fieldOp_formatXK, fieldX_formatXK,
      fieldKK_formatXK]
  case seReg | ldReg | orReg | andReg | xorReg | addReg | subReg | shr | subnReg | shl | sneReg =>
    simp [encode, decode, decodeFamily8, fieldOp_formatXYN, fieldX_formatXYN, fieldY_formatXYN, fieldN_formatXYN]
  case drw x y n =>
    have hn : n < 16 := of_decide_eq_true hi
    simp [encode, decode, fieldOp_formatXYN, fieldX_formatXYN, fieldY_formatXYN, fieldN_formatXYN, Nat.mod_eq_of_lt hn]

/-! ### The bits under the masks of R85 are the fields that the decoder selects on -/

theorem and_F000_eq (w : Word) : w &&& 0xF000 = fieldOp w ++ 0#12 := by
  apply BitVec.eq_of_getLsbD_eq
  intro k hk
  simp only [fieldOp, BitVec.getLsbD_and, BitVec.getLsbD_append, BitVec.getLsbD_extractLsb']
  interval_cases k <;> simp

theorem and_F00F_eq (w : Word) : w &&& 0xF00F = fieldOp w ++ 0#8 ++ fieldN w := by
  apply BitVec.eq_of_getLsbD_eq
  intro k hk
  simp only [fieldOp, fieldN, BitVec.getLsbD_and, BitVec.getLsbD_append, BitVec.getLsbD_extractLsb']
  interval_cases k <;> simp

theorem and_F0FF_eq (w : Word) : w &&& 0xF0FF = fieldOp w ++ 0#4 ++ fieldKK w := by
  apply BitVec.eq_of_getLsbD_eq
  intro k hk
  simp only [fieldOp, fieldKK, BitVec.getLsbD_and, BitVec.getLsbD_append, BitVec.getLsbD_extractLsb']
  interval_cases k <;> simp

/-! ### What the decoder can answer -/

/-- What R84 lets the decoder answer on `w`: a well-formed instruction whose row of R85 the word matches, or the error
that carries the word. -/
def SoundAnswer (w : Word) : Except DecodeError Instr → Prop
  | .ok i => i.WellFormed ∧ ∃ r, opcodeTable[i.rowIndex]? = some r ∧ w &&& r.mask = r.value
  | .error e => e = .invalidOpcode w

theorem decodeFamily0_sound {w : Word} (hop : fieldOp w = 0x0) : SoundAnswer w (decodeFamily0 w) := by
  unfold decodeFamily0
  split
  case h_3 => rfl
  all_goals exact ⟨rfl, _, rfl, by rw [and_F0FF_eq, hop, ‹fieldKK w = _›]; rfl⟩

theorem decodeFamily8_sound {w : Word} (hop : fieldOp w = 0x8) : SoundAnswer w (decodeFamily8 w) := by
  unfold decodeFamily8
  split
  case h_10 => rfl
  all_goals exact ⟨rfl, _, rfl, by rw [and_F00F_eq, hop, ‹fieldN w = _›]; rfl⟩

theorem decodeFamilyE_sound {w : Word} (hop : fieldOp w = 0xE) : SoundAnswer w (decodeFamilyE w) := by
  unfold decodeFamilyE
  split
  case h_3 => rfl
  all_goals exact ⟨rfl, _, rfl, by rw [and_F0FF_eq, hop, ‹fieldKK w = _›]; rfl⟩

theorem decodeFamilyF_sound {w : Word} (hop : fieldOp w = 0xF) : SoundAnswer w (decodeFamilyF w) := by
  unfold decodeFamilyF
  split
  case h_10 => rfl
  all_goals exact ⟨rfl, _, rfl, by rw [and_F0FF_eq, hop, ‹fieldKK w = _›]; rfl⟩

theorem decode_sound (w : Word) : SoundAnswer w (decode w) := by
  unfold decode
  split
  case h_1 hop => exact decodeFamily0_sound hop
  case h_9 hop => exact decodeFamily8_sound hop
  case h_15 hop => exact decodeFamilyE_sound hop
  case h_16 hop => exact decodeFamilyF_sound hop
  case h_17 => rfl
  case h_14 hop => exact ⟨decide_eq_true (fieldN w).isLt, _, rfl, by rw [and_F000_eq, hop]; rfl⟩
  all_goals exact ⟨rfl, _, rfl, by rw [and_F000_eq, ‹fieldOp w = _›]; rfl⟩

theorem wellFormed_and_matches_of_decode_ok {w : Word} {i : Instr} (h : decode w = .ok i) :
    i.WellFormed ∧ ∃ r, opcodeTable[i.rowIndex]? = some r ∧ w &&& r.mask = r.value := by
  have hsound := decode_sound w
  rwa [h] at hsound

theorem eq_invalidOpcode_of_decode_error {w : Word} {e : DecodeError} (h : decode w = .error e) :
    e = .invalidOpcode w := by
  have hsound := decode_sound w
  rwa [h] at hsound

/-- Settles O4: each branch of R84 answers a well-formed instruction or carries the word; the height of a sprite is a
4-bit field. -/
theorem decoderYieldsWellFormedOrInvalid : Obligations.DecoderYieldsWellFormedOrInvalid := by
  intro w
  cases hd : decode w with
  | ok i => exact .inl ⟨i, rfl, (wellFormed_and_matches_of_decode_ok hd).1⟩
  | error e => exact .inr (congrArg _ (eq_invalidOpcode_of_decode_error hd))

/-! ### The row that the decoder selects -/

/-- The number, less one, of the row of R85 whose instruction `w` decodes to. -/
def decodedRow (w : Word) : Option Nat := (decode w).toOption.map Instr.rowIndex

theorem decodedRow_eq_some_iff {w : Word} {k : Nat} :
    decodedRow w = some k ↔ ∃ i, decode w = .ok i ∧ i.rowIndex = k := by
  cases hd : decode w <;> simp [decodedRow, hd, Except.toOption]

/-- The row depends on the family, in family 8 on the low nibble too, in families 0, E and F on the low byte too. -/
theorem decodedRow_congr {w v : Word} (hop : fieldOp w = fieldOp v) (hn : fieldOp v = 0x8 → fieldN w = fieldN v)
    (hkk : fieldOp v ∈ [0x0#4, 0xE#4, 0xF#4] → fieldKK w = fieldKK v) : decodedRow w = decodedRow v := by
  simp only [decodedRow, decode, hop]
  split
  case h_1 h => rw [decodeFamily0, decodeFamily0, hkk (by simp [h])]; split <;> rfl
  case h_9 h => rw [decodeFamily8, decodeFamily8, hn h]; split <;> rfl
  case h_15 h => rw [decodeFamilyE, decodeFamilyE, hkk (by simp [h])]; split <;> rfl
  case h_16 h => rw [decodeFamilyF, decodeFamilyF, hkk (by simp [h])]; split <;> rfl
  all_goals rfl

/-- Row `r` of R85 has number `k`, less one: its value decodes to that row, and its mask keeps the fields that
`decodedRow_congr` names for its family. -/
abbrev OpcodeRow.Selects (r : OpcodeRow) (k : Nat) : Prop :=
  decodedRow r.value = some k ∧
    (r.mask = 0xF000 ∧ fieldOp r.value ≠ 0x8 ∧ fieldOp r.value ∉ [0x0#4, 0xE#4, 0xF#4] ∨
     r.mask = 0xF00F ∧ fieldOp r.value ∉ [0x0#4, 0xE#4, 0xF#4] ∨
     r.mask = 0xF0FF ∧ fieldOp r.value ≠ 0x8)

theorem opcodeTable_selects {k : Nat} {r : OpcodeRow} (hr : opcodeTable[k]? = some r) : r.Selects k := by
  have hrows : ∀ p ∈ opcodeTable.zipIdx, p.1.Selects p.2 := by decide
  exact hrows (r, k) (List.mk_mem_zipIdx_iff_getElem?.mpr hr)

theorem decodedRow_of_matches {w : Word} {k : Nat} {r : OpcodeRow} (hr : opcodeTable[k]? = some r)
    (h : w &&& r.mask = r.value) : decodedRow w = some k := by
  obtain ⟨hrow, hmask⟩ := opcodeTable_selects hr
  rw [← hrow]
  obtain ⟨hm, hne8, hsel⟩ | ⟨hm, hsel⟩ | ⟨hm, hne8⟩ := hmask <;> rw [hm] at h
  · exact decodedRow_congr (fieldOp_of_F000 h) (absurd · hne8) (absurd · hsel)
  · exact decodedRow_congr (fields_of_F00F h).1 (fun _ => (fields_of_F00F h).2) (absurd · hsel)
  · exact decodedRow_congr (fields_of_F0FF h).1 (absurd · hne8) (fun _ => (fields_of_F0FF h).2)

theorem matches_iff_decodedRow {w : Word} {k : Nat} {r : OpcodeRow} (hr : opcodeTable[k]? = some r) :
    w &&& r.mask = r.value ↔ decodedRow w = some k := by
  refine ⟨decodedRow_of_matches hr, fun hrow => ?_⟩
  obtain ⟨i, hd, rfl⟩ := decodedRow_eq_some_iff.mp hrow
  obtain ⟨-, r', hr', hmatch⟩ := wellFormed_and_matches_of_decode_ok hd
  cases hr.symm.trans hr'
  exact hmatch

/-- Settles O2: matching row `k` is decoding to row `k`, and a word decodes to one row at most. -/
theorem decoderAgreesWithOpcodeMap : Obligations.DecoderAgreesWithOpcodeMap := by
  refine ⟨rfl, fun w k r hr => (matches_iff_decodedRow hr).trans decodedRow_eq_some_iff, ?_⟩
  intro w k k' r r' hr hr' h h'
  exact Option.some.inj ((decodedRow_of_matches hr h).symm.trans (decodedRow_of_matches hr' h'))

/-! ### The invalid words -/

theorem toNat_fieldOp (w : Word) : (fieldOp w).toNat = w.toNat / 0x1000 := by
  simp only [fieldOp, BitVec.extractLsb'_toNat, Nat.shiftRight_eq_div_pow]
  omega

theorem toNat_fieldN (w : Word) : (fieldN w).toNat = w.toNat % 0x10 := by
  simp only [fieldN, BitVec.extractLsb'_toNat, Nat.shiftRight_zero]

theorem toNat_fieldKK (w : Word) : (fieldKK w).toNat = w.toNat % 0x100 := by
  simp only [fieldKK, BitVec.extractLsb'_toNat, Nat.shiftRight_zero]

/-! Each of the four families with sub-opcodes rejects exactly those it does not list (R84). -/

theorem decodeFamily0_eq_error_iff (w : Word) : decodeFamily0 w = .error (.invalidOpcode w) ↔
    fieldKK w ∉ [0xE0#8, 0xEE#8] := by
  unfold decodeFamily0
  split <;> simp_all

theorem decodeFamily8_eq_error_iff (w : Word) : decodeFamily8 w = .error (.invalidOpcode w) ↔
    fieldN w ∉ [0x0#4, 0x1#4, 0x2#4, 0x3#4, 0x4#4, 0x5#4, 0x6#4, 0x7#4, 0xE#4] := by
  unfold decodeFamily8
  split <;> simp_all

theorem decodeFamilyE_eq_error_iff (w : Word) : decodeFamilyE w = .error (.invalidOpcode w) ↔
    fieldKK w ∉ [0x9E#8, 0xA1#8] := by
  unfold decodeFamilyE
  split <;> simp_all

theorem decodeFamilyF_eq_error_iff (w : Word) : decodeFamilyF w = .error (.invalidOpcode w) ↔
    fieldKK w ∉ [0x07#8, 0x0A#8, 0x15#8, 0x18#8, 0x1E#8, 0x29#8, 0x33#8, 0x55#8, 0x65#8] := by
  unfold decodeFamilyF
  split <;> simp_all

/-- Settles O3: only the families 0, 8, E and F can reject a word, each by the sub-opcodes it does not list. -/
theorem invalidWordsAreThoseOfR86 : Obligations.InvalidWordsAreThoseOfR86 := by
  intro w
  rw [← toNat_fieldOp, ← toNat_fieldN, ← toNat_fieldKK]
  unfold decode
  split
  case h_1 hop => simp [hop, decodeFamily0_eq_error_iff, BitVec.toNat_eq]
  case h_9 hop => simp [hop, decodeFamily8_eq_error_iff, BitVec.toNat_eq]; omega
  case h_15 hop => simp [hop, decodeFamilyE_eq_error_iff, BitVec.toNat_eq]
  case h_16 hop => simp [hop, decodeFamilyF_eq_error_iff, BitVec.toNat_eq]
  case h_17 =>
    have hlt := (fieldOp w).isLt
    simp_all only [imp_false, BitVec.toNat_eq, BitVec.toNat_ofNat]
    omega
  all_goals simp [‹fieldOp w = _›]

/-- Settles O6: each word is evaluated. -/
theorem sampleWordsDecode : Obligations.SampleWordsDecode := by
  unfold Obligations.SampleWordsDecode
  decide

end Sys2Proof
end

section
/-! PROOFS. The family of 40_cycle.md: the `Step` transition in every status, what an instruction leaves unchanged, and
the invariant under each of the five transitions. -/

namespace Sys2Proof.Machine

/-! ### The `Step` transition by status, and the cycle by the fetch (R100) -/

theorem stepTransition_of_running {s : State} (hs : s.status = .running) (keys : Vector Bool 16) (r : Byte) :
    stepTransition keys r s = cycle keys r s := by
  simp [stepTransition, hs]

theorem stepTransition_of_waitKey {s : State} {x : Reg} (hs : s.status = .waitKey x) (keys : Vector Bool 16)
    (r : Byte) : stepTransition keys r s = .next s := by
  simp [stepTransition, hs]

theorem stepTransition_of_halted {s : State} (hs : s.status = .halted) (keys : Vector Bool 16) (r : Byte) :
    stepTransition keys r s = .next s := by
  simp [stepTransition, hs]

/-- Past the last address that holds two bytes a cycle is the fetch fault (R101). -/
theorem cycle_of_ge {s : State} (h : 0xFFF ≤ s.pc.toNat) (keys : Vector Bool 16) (r : Byte) :
    cycle keys r s = .next (s.latch keys r).raiseFetch := by
  obtain ⟨-, e⟩ | ⟨_, hlt, -⟩ := cycle_cases keys r s
  · exact e
  · omega

/-- Inside the space a cycle dispatches the two bytes at `pc`, after the latch and the advance (R100, R102). -/
theorem cycle_of_lt {s : State} {w : Word} (h : s.pc.toNat < 0xFFF)
    (hw : w = s.mem.read s.pc.toNat ++ s.mem.read (s.pc.toNat + 1)) (keys : Vector Bool 16) (r : Byte) :
    cycle keys r s = dispatch w ((s.latch keys r).fetched w) := by
  rw [cycle, State.fetchWord_latch, State.fetchWord_of_lt h, hw]

/-! ### The five transitions keep the invariant -/

theorem stepTransition_keeps_inv {keys : Vector Bool 16} {r : Byte} {s t : State} (hinv : s.Inv)
    (h : stepTransition keys r s = .next t) : t.Inv := by
  cases hs : s.status with
  | running => exact cycle_keeps_inv hs hinv ((stepTransition_of_running hs keys r).symm.trans h)
  | waitKey x => cases (stepTransition_of_waitKey hs keys r).symm.trans h; exact hinv
  | halted => cases (stepTransition_of_halted hs keys r).symm.trans h; exact hinv

/-- Where no key is awaited the event is ignored (R184). -/
theorem State.keyDeliver_of_not_waiting {s : State} (hs : ∀ x, s.status ≠ .waitKey x) (k : Key) :
    s.keyDeliver k = s := by
  unfold State.keyDeliver
  split
  · next x e => exact absurd e (hs x)
  · rfl
  · rfl

theorem State.keyDeliver_keeps_inv {s : State} (hinv : s.Inv) (k : Key) : (s.keyDeliver k).Inv := by
  by_cases hs : ∃ x, s.status = .waitKey x
  · obtain ⟨x, hx⟩ := hs
    exact State.inv_keyDeliver hx hinv k
  · rw [State.keyDeliver_of_not_waiting (not_exists.mp hs)]
    exact hinv

/-- An accepted `Load` writes a block of memory and sets the CPU state to its reset values (R234). -/
theorem State.loadProgram_keeps_inv {s : State} (hinv : s.Inv) (bytes : List Byte) : (s.loadProgram bytes).Inv := by
  obtain ⟨hmem, -, -⟩ := hinv
  obtain ⟨-, hb, hacc⟩ := invariantHoldsAtReset
  exact ⟨Memory.wf_writeBytes bytes hmem, ⟨hb.1, fun _ hj => absurd hj (Nat.not_lt_zero _)⟩, hacc⟩

/-- A `Load` that answers a next state is an accepted one (R232, R235). -/
theorem eq_loadProgram_of_load {bytes : List Byte} {s t : State} (h : load bytes s = .next t) :
    t = s.loadProgram bytes := by
  unfold load at h
  split at h
  · cases h
  · split at h
    · cases h
    · exact (Host.Outcome.next.inj h).symm

/-- Settles O60: `Step` by its status, and the four others by what they write; `Tick` touches nothing the invariant
reads, and `Construct` leaves the reset state up to what the host presents. -/
theorem transitionsKeepTheInvariant : Obligations.TransitionsKeepTheInvariant := by
  intro a s t hinv h
  cases a with
  | step keys r => exact stepTransition_keeps_inv hinv h
  | keyDeliver k => cases h; exact State.keyDeliver_keeps_inv hinv k
  | tick => cases h; exact hinv
  | construct => cases h; exact invariantHoldsAtReset
  | load bytes => rw [eq_loadProgram_of_load h]; exact State.loadProgram_keeps_inv hinv bytes

/-! ### The cycle applies the decoded operation once -/

/-- Settles O7: the status selects the transition, `pc` the fetch, and the decoder what follows it. -/
theorem stepTransitionIsTheCycle : Obligations.StepTransitionIsTheCycle := by
  intro keys r s
  refine ⟨fun hs => ⟨stepTransition_of_halted hs keys r, by simp [State.report, hs]⟩,
    fun x hs => ⟨stepTransition_of_waitKey hs keys r, by simp [State.report, hs]⟩,
    fun hs hpc => ?_, fun hs hpc w hw => ⟨fun i hd => ?_, fun e hd => ?_⟩⟩
  · rw [stepTransition_of_running hs, cycle_of_ge (by omega)]
    rfl
  · rw [stepTransition_of_running hs, cycle_of_lt (by omega) hw, dispatch_ok hd]
    rfl
  · rw [stepTransition_of_running hs, cycle_of_lt (by omega) hw, dispatch_error hd]
    rfl

/-- Settles O8: the third case of the cycle. -/
theorem decodedOperationIsAppliedOnce : Obligations.DecodedOperationIsAppliedOnce := by
  intro keys r s i hs hpc hd
  obtain ⟨-, -, -, hcycle⟩ := stepTransitionIsTheCycle keys r s
  exact (hcycle hs hpc _ rfl).1 i hd

theorem engineTransition_of_running {s : State} (hs : s.status = .running) (inp : Inputs) :
    engineTransition inp s = cycle inp.keys inp.rnd s := by
  simp [engineTransition, stepTransition, hs]

/-- Settles O9: the ticks and the taking of the inputs change neither the status, nor `pc`, nor memory, so the cycle
after them fetches the same word. -/
theorem stepRunsDecodedInstruction : Obligations.StepRunsDecodedInstruction := by
  rintro s inp i rfl hs hpc hd
  have hs' : (s.takeInputs.ticks s.nextInputs.ticks).status = .running := by simpa using hs
  have hpc' : (s.takeInputs.ticks s.nextInputs.ticks).pc.toNat < 0xFFF := by simpa using Nat.lt_of_succ_le hpc
  rw [step_eq, engineTransition_of_running hs', cycle_of_lt hpc' rfl]
  simp only [State.ticks_mem, State.ticks_pc, State.takeInputs_mem, State.takeInputs_pc]
  rw [dispatch_ok hd]
  simp [State.fetched, State.latch]

/-! ### The frame rule (R106) -/

/-- `ExecFrame s i t`: from `s` to `t` only what the rule of `i` names has changed (R106). A fault changes `status` and
`fault` alone, so it stands with the instructions that touch `pc` or the status. -/
inductive ExecFrame (s : State) : Instr → State → Prop
  | control (i : Instr) (pc : Word) (status : Status) (fault : Option FaultRecord) (draws : Nat) :
    ExecFrame s i { s with pc := pc, status := status, fault := fault, draws := draws }
  | stack {i : Instr} (pc : Word) (stack : Vector Word 16) (sp : Fin 17) (hi : i = .ret ∨ ∃ nnn, i = .call nnn) :
    ExecFrame s i { s with pc := pc, stack := stack, sp := sp }
  | index {i : Instr} (a : Word) (draws : Nat) (hi : (∃ nnn, i = .ldI nnn) ∨ ∃ x, i = .addI x ∨ i = .ldF x) :
    ExecFrame s i { s with i := a, draws := draws }
  | memory {i : Instr} (m : Memory) (hi : ∃ x, i = .ldB x ∨ i = .storeRegs x) : ExecFrame s i { s with mem := m }
  | delayTimer {i : Instr} (u : Byte) (hi : ∃ x, i = .ldDtVx x) : ExecFrame s i { s with dt := u }
  | soundTimer {i : Instr} (u : Byte) (hi : ∃ x, i = .ldStVx x) : ExecFrame s i { s with st := u }
  | clear : ExecFrame s .cls { s with fb := Framebuffer.clear }
  | draw (x y : Reg) (n : Nat) (v : Vector Byte 16) (fb : Framebuffer) :
    ExecFrame s (.drw x y n) { s with v := v, fb := fb }
  | register {i : Instr} (x : Reg) (u : Byte)
      (hi : (∃ kk, i = .ldImm x kk ∨ i = .addImm x kk ∨ i = .rnd x kk) ∨
        (∃ y, i = .ldReg x y ∨ i = .orReg x y ∨ i = .andReg x y ∨ i = .xorReg x y) ∨ i = .ldVxDt x) :
    ExecFrame s i (s.setReg x u)
  | flag {i : Instr} (x : Reg) (v : Vector Byte 16)
      (hi : ∃ y, i = .addReg x y ∨ i = .subReg x y ∨ i = .subnReg x y ∨ i = .shr x ∨ i = .shl x) :
    ExecFrame s i { s with v := v }
  | block (x : Reg) (us : List Byte) (hus : us.length = x.val + 1) :
    ExecFrame s (.loadRegs x) { s with v := setRegsFrom s.v 0 us }

/-- Every instruction stays within its frame. -/
theorem exec_frame {i : Instr} {s t : State} (h : exec i s = .next t) : ExecFrame s i t := by
  cases i <;> simp only [exec] at h
  case ret =>
    simp only [execRet, Host.Outcome.next.injEq] at h
    obtain ⟨_, e⟩ | ⟨_, e⟩ := s.pop_cases <;> rw [e] at h <;> subst h
    · exact .control ..
    · exact .stack _ _ _ (.inl rfl)
  case call nnn =>
    simp only [execCall, Host.Outcome.next.injEq] at h
    obtain ⟨_, e⟩ | ⟨_, e⟩ := s.push_cases s.pc <;> rw [e] at h <;> subst h
    · exact .control ..
    · exact .stack _ _ _ (.inr ⟨nnn, rfl⟩)
  case skp x =>
    cases h
    obtain ⟨_, e⟩ | ⟨_, e⟩ := s.keyTest_cases x Config.skpOutOfRange <;> rw [e] <;> exact .control ..
  case sknp x =>
    cases h
    obtain ⟨_, e⟩ | ⟨_, e⟩ := s.keyTest_cases x Config.sknpOutOfRange <;> rw [e] <;> exact .control ..
  case jp | jpV0 | seImm | sneImm | seReg | sneReg | ldVxK => cases h; exact .control ..
  case ldI nnn => cases h; exact .index _ _ (.inl ⟨nnn, rfl⟩)
  case addI x => cases h; exact .index _ _ (.inr ⟨x, .inl rfl⟩)
  case ldF x => cases h; split <;> exact .index _ _ (.inr ⟨x, .inr rfl⟩)
  case ldB x =>
    cases h; split
    · exact .control ..
    · exact .memory _ ⟨x, .inl rfl⟩
  case storeRegs x =>
    cases h; split
    · exact .control ..
    · exact .memory _ ⟨x, .inr rfl⟩
  case loadRegs x =>
    cases h; split
    · exact .control ..
    · exact .block x _ (Memory.length_readBytes ..)
  case ldDtVx x => cases h; exact .delayTimer _ ⟨x, rfl⟩
  case ldStVx x => cases h; exact .soundTimer _ ⟨x, rfl⟩
  case cls => cases h; exact .clear
  case drw x y n =>
    cases h; split
    · exact .control ..
    · exact .draw x y n _ _
  case addReg x _ | subReg x _ | subnReg x _ | shr x | shl x => cases h; exact .flag x _ (by simp)
  all_goals cases h; exact .register _ _ (by simp)

/-- A write to one register reaches `VF` only as its destination. -/
theorem State.eq_VF_of_reg_setReg_ne {s : State} {x : Reg} {u : Byte} (h : (s.setReg x u).reg VF ≠ s.reg VF) :
    x = VF := by
  by_contra hne
  exact h (by rw [State.reg_setReg, if_neg (Ne.symm hne)])

/-- A block that starts at `V0` reaches `VF` only when all sixteen registers are written. -/
theorem setRegsFrom_getElem_VF {v : Vector Byte 16} {us : List Byte} (h : us.length ≤ 15) :
    (setRegsFrom v 0 us)[VF] = v[VF] := by
  rw [Fin.getElem_fin, setRegsFrom_getElem, dif_neg (by simp; omega), Fin.getElem_fin]

/-- Settles O15: each way an instruction can change the state leaves all but the named part as it was, and `VF` is
reached by a flag instruction, as a destination, or by a block of sixteen. -/
theorem frameRuleOverAllInstructions : Obligations.FrameRuleOverAllInstructions := by
  intro i s t h
  cases exec_frame h with
  | control => simp [State.reg]
  | stack _ _ _ hi => simp [State.reg, hi]
  | index _ _ hi => simp [State.reg, hi]
  | memory _ hi => simp [State.reg, hi]
  | delayTimer _ hi => simp [State.reg, hi]
  | soundTimer _ hi => simp [State.reg, hi]
  | clear => simp [State.reg]
  | draw => simp
  | register x u hi =>
    refine ⟨by simp, by simp, by simp, by simp, by simp, by simp, fun hne => .inr ?_, rfl, rfl, rfl, rfl, rfl⟩
    obtain rfl := State.eq_VF_of_reg_setReg_ne hne
    exact hi.imp_right (Or.imp_right .inl)
  | flag x v hi =>
    obtain ⟨y, rfl | rfl | rfl | rfl | rfl⟩ := hi <;> simp
  | block x us hus =>
    refine ⟨by simp, by simp, by simp, by simp, by simp, by simp, fun hne => .inr (.inr (.inr (.inr ?_))),
      rfl, rfl, rfl, rfl, rfl⟩
    have hx : ¬ us.length ≤ 15 := fun hlen => hne (setRegsFrom_getElem_VF hlen)
    rw [show x = VF from Fin.ext (by simp; omega)]

end Sys2Proof.Machine
end

section
/-! PROOFS. The family of 41_display.md: what `CLS` and `DRW` do to each pixel, to `VF` and to nothing else. -/

namespace Sys2Proof.Machine

/-! ### The words of `CLS` and `DRW` -/

/-- Family 0 with the low byte 0xE0 is `CLS`, whatever `w[11:8]` (R87, D11). -/
theorem decode_cls {w : Word} (h : w &&& 0xF0FF = 0x00E0) : decode w = .ok .cls := by
  obtain ⟨hop, hkk⟩ := fields_of_F0FF h
  have hop : fieldOp w = 0x0 := hop
  have hkk : fieldKK w = 0xE0 := hkk
  simp [decode, decodeFamily0, hop, hkk]

/-- Family 0xD is `DRW`, its operands the three nibbles below (R85). -/
theorem decode_drw {w : Word} (h : w &&& 0xF000 = 0xD000) :
    decode w = .ok (.drw (fieldX w) (fieldY w) (fieldN w).toNat) := by
  have hop : fieldOp w = 0xD := fieldOp_of_F000 h
  simp [decode, hop]

/-- Settles O17: the cleared framebuffer has no pixel that is 1, and `CLS` writes no other field. -/
theorem clsClearsEveryPixel : Obligations.ClsClearsEveryPixel :=
  ⟨fun _ h => decode_cls h, fun _ => ⟨_, rfl, Framebuffer.get_clear, rfl⟩⟩

/-! ### The bound test of `DRW` (R124, R59) -/

/-- The bound test answers true when the sprite has a row past the space. -/
theorem State.drw_outOfRange_iff (s : State) (n : Nat) :
    (0 < n && s.outOfRange (n - 1)) = true ↔ 0 < n ∧ s.i.toNat + n - 1 > 0xFFF := by
  rw [Bool.and_eq_true, decide_eq_true_eq]
  refine and_congr_right fun hn => decide_eq_true_iff.trans ?_
  rw [State.addrOf, Nat.add_sub_assoc hn]

/-- A sprite that is empty or ends inside the space is drawn (D28). -/
theorem exec_drw_of_le {x y : Reg} {n : Nat} {s : State} (h : n = 0 ∨ s.i.toNat + n - 1 ≤ 0xFFF) :
    exec (.drw x y n) s = .next (s.drawSprite x y n) :=
  congrArg Host.Outcome.next (if_neg (by rw [State.drw_outOfRange_iff]; omega))

/-- A sprite whose last row lies past the space is the fault, with nothing drawn (D9). -/
theorem exec_drw_of_gt {x y : Reg} {n : Nat} {s : State} (hn : 0 < n) (h : s.i.toNat + n - 1 > 0xFFF) :
    exec (.drw x y n) s = .next (s.raise .memoryOutOfRange) :=
  congrArg Host.Outcome.next (if_pos ((s.drw_outOfRange_iff n).mpr ⟨hn, h⟩))

/-! ### The pixels under the sprite -/

/-- The pixels that `DRW Vx,Vy,n` toggles in `s`. -/
def State.spriteAt (s : State) (x y : Reg) (n : Nat) : List Pixel :=
  spritePixels (s.reg x) (s.reg y) 0 (s.mem.readBytes (s.addrOf 0) n)

theorem wrapPixel_eq_iff {a b : Byte} {bit row : Nat} {p : Pixel} :
    wrapPixel a b bit row = p ↔ p.1.val = (a.toNat + bit) % 64 ∧ p.2.val = (b.toNat + row) % 32 := by
  simp only [wrapPixel, Prod.ext_iff, Fin.ext_iff, Fin.val_ofNat, eq_comm]

/-- The sprite's pixels are those of R124: one for each bit that is 1, most significant bit leftmost, wrapped. -/
theorem State.mem_spriteAt {s : State} {x y : Reg} {n : Nat} {p : Pixel} :
    p ∈ s.spriteAt x y n ↔
      ∃ row < n, ∃ bit < 8, (s.mem.read (s.i.toNat + row)).getLsbD (7 - bit) = true ∧
        p.1.val = ((s.reg x).toNat + bit) % 64 ∧ p.2.val = ((s.reg y).toNat + row) % 32 := by
  simp [State.spriteAt, State.addrOf, mem_spritePixels, mem_spriteRowPixels, wrapPixel_eq_iff]

/-- The 15 rows of the tallest sprite do not wrap onto each other. -/
theorem State.nodup_spriteAt {s : State} {x y : Reg} {n : Nat} (hn : n < 16) : (s.spriteAt x y n).Nodup :=
  nodup_spritePixels (by rw [Memory.length_readBytes]; omega)

/-- The sprite depends on its two coordinate registers, `I` and memory only. -/
theorem State.spriteAt_congr {s t : State} {x y : Reg} (hx : t.reg x = s.reg x) (hy : t.reg y = s.reg y)
    (hi : t.i = s.i) (hm : t.mem = s.mem) (n : Nat) : t.spriteAt x y n = s.spriteAt x y n := by
  simp only [State.spriteAt, State.addrOf, hx, hy, hi, hm]

/-! ### The draw -/

@[simp] theorem State.drawSprite_i (s : State) (x y : Reg) (n : Nat) : (s.drawSprite x y n).i = s.i := rfl
@[simp] theorem State.drawSprite_mem (s : State) (x y : Reg) (n : Nat) : (s.drawSprite x y n).mem = s.mem := rfl

/-- The draw writes no field but the registers and the framebuffer. -/
theorem State.drawSprite_frame (s : State) (x y : Reg) (n : Nat) :
    s.drawSprite x y n = { s with v := (s.drawSprite x y n).v, fb := (s.drawSprite x y n).fb } := rfl

/-- Of the registers it writes `VF` only. -/
theorem State.reg_drawSprite_of_ne {s : State} {x y z : Reg} {n : Nat} (hz : z ≠ VF) :
    (s.drawSprite x y n).reg z = s.reg z :=
  (State.reg_setReg _ _ _ _).trans (if_neg hz)

/-- Each pixel under the sprite is toggled once, and no other. -/
theorem State.get_fb_drawSprite {s : State} {x y : Reg} {n : Nat} (hn : n < 16) (p : Pixel) :
    (s.drawSprite x y n).fb.get p = (s.fb.get p ^^ decide (p ∈ s.spriteAt x y n)) :=
  (drawPixels_spec _ (State.nodup_spriteAt hn) s.fb false).1 p

theorem State.get_fb_drawSprite_ne_iff {s : State} {x y : Reg} {n : Nat} (hn : n < 16) (p : Pixel) :
    (s.drawSprite x y n).fb.get p ≠ s.fb.get p ↔ p ∈ s.spriteAt x y n := by
  rw [State.get_fb_drawSprite hn]
  by_cases hp : p ∈ s.spriteAt x y n <;> simp [hp]

/-- A lit pixel goes out exactly where the sprite covers it. -/
theorem State.pixel_goes_out_iff {s : State} {x y : Reg} {n : Nat} (hn : n < 16) (p : Pixel) :
    s.fb.get p = true ∧ (s.drawSprite x y n).fb.get p = false ↔ p ∈ s.spriteAt x y n ∧ s.fb.get p = true := by
  rw [State.get_fb_drawSprite hn, and_comm]
  exact and_congr_left fun hlit => by simp [hlit]

/-- `VF` holds the collision flag: whether some lit pixel went out. -/
theorem State.reg_VF_drawSprite {s : State} {x y : Reg} {n : Nat} (hn : n < 16) :
    (s.drawSprite x y n).reg VF =
      flagByte (decide (∃ p, s.fb.get p = true ∧ (s.drawSprite x y n).fb.get p = false)) := by
  have hflag := (drawPixels_spec _ (State.nodup_spriteAt (s := s) (x := x) (y := y) hn) s.fb false).2
  refine (State.reg_setReg_same _ _ _).trans (congrArg flagByte (Bool.eq_iff_iff.mpr ?_))
  simp only [State.pixel_goes_out_iff hn, decide_eq_true_eq]
  exact hflag.trans (by simp)

/-- Settles O18: by the bound test; past it the toggled pixels are those under the sprite, and the flag says whether a
lit pixel went out. -/
theorem drwTogglesTheSpritePixels : Obligations.DrwTogglesTheSpritePixels := by
  refine ⟨fun _ h => decode_drw h, fun x y n s hn => ⟨fun hbound => ?_, fun hpos hout => exec_drw_of_gt hpos hout⟩⟩
  refine ⟨_, exec_drw_of_le hbound, fun p => (State.get_fb_drawSprite_ne_iff hn p).trans State.mem_spriteAt,
    fun hout => ?_, fun hkept => ?_, fun z hz => State.reg_drawSprite_of_ne hz, State.drawSprite_frame s x y n⟩
  · rw [State.reg_VF_drawSprite hn, decide_eq_true hout]
    rfl
  · have hnone : ¬ ∃ p, s.fb.get p = true ∧ (s.drawSprite x y n).fb.get p = false := by
      rintro ⟨p, hlit, hdark⟩
      simp [hkept p hlit] at hdark
    rw [State.reg_VF_drawSprite hn, decide_eq_false hnone]
    rfl

/-- A second draw toggles the same pixels again, as the first wrote neither its coordinates, nor `I`, nor memory. -/
theorem State.fb_drawSprite_drawSprite {s : State} {x y : Reg} {n : Nat} (hn : n < 16) (hx : x ≠ VF) (hy : y ≠ VF) :
    ((s.drawSprite x y n).drawSprite x y n).fb = s.fb := by
  have hsame : (s.drawSprite x y n).spriteAt x y n = s.spriteAt x y n :=
    State.spriteAt_congr (State.reg_drawSprite_of_ne hx) (State.reg_drawSprite_of_ne hy)
      (s.drawSprite_i x y n) (s.drawSprite_mem x y n) n
  refine Framebuffer.ext fun p => ?_
  rw [State.get_fb_drawSprite hn, hsame, State.get_fb_drawSprite hn, Bool.xor_assoc, Bool.xor_self, Bool.xor_false]

/-- Settles O19: both draws pass the bound test, as the first leaves `I` alone, and toggling twice is the identity. -/
theorem drawingTwiceRestoresTheFramebuffer : Obligations.DrawingTwiceRestoresTheFramebuffer := by
  intro x y n s hn hx hy hbound
  exact ⟨_, _, exec_drw_of_le hbound, exec_drw_of_le hbound, State.fb_drawSprite_drawSprite hn hx hy⟩

end Sys2Proof.Machine
end

section
/-! PROOFS. The family of 42_control_flow.md: where `pc` and the call stack are after each jump, call, return and skip,
and the endless loop of a jump to its own address. -/

namespace Sys2Proof.Machine

/-! ### A jump to its own address (R132, D26) -/

/-- The end of the run reads the status and the fetched word. -/
theorem State.endOfRun_iff (s : State) :
    s.endOfRun = true ↔ s.status = .running ∧ s.fetchWord = some (encode (.jp (s.pc.setWidth 12))) := by
  simp [State.endOfRun]

/-- What a fetch answers, it read at two addresses of the space (R101). -/
theorem State.fetchWord_eq_some {s : State} {w : Word} (h : s.fetchWord = some w) :
    s.pc.toNat + 1 ≤ 0xFFF ∧ s.mem.read s.pc.toNat ++ s.mem.read (s.pc.toNat + 1) = w := by
  have hpc : s.pc.toNat + 1 ≤ 0xFFF := by
    by_contra hgt
    rw [State.fetchWord, if_pos (by omega)] at h
    cases h
  rw [State.fetchWord_of_lt hpc] at h
  exact ⟨hpc, Option.some.inj h⟩

/-- An address of the space survives the way through a 12-bit field. -/
theorem addrWord_setWidth_of_le {a : Word} (h : a.toNat ≤ 0xFFF) : addrWord (a.setWidth 12) = a := by
  apply BitVec.eq_of_toNat_eq
  simp only [addrWord, BitVec.toNat_setWidth]
  omega

/-- Taking the inputs of a step changes nothing but what the host presents. -/
theorem State.takeInputs_frame (s : State) :
    s.takeInputs = { s with inputs := s.takeInputs.inputs, draws := s.takeInputs.draws } := by
  unfold State.takeInputs
  split <;> rfl

/-- Settles O57: the step runs the `JP` it fetches, after ticks and latches, and the jump puts `pc` back to where it
was; so the next fetch reads the same word. -/
theorem selfJumpIsAnEndlessLoop : Obligations.SelfJumpIsAnEndlessLoop := by
  intro s hend
  obtain ⟨hrun, hfetch⟩ := s.endOfRun_iff.mp hend
  obtain ⟨hpc, hword⟩ := State.fetchWord_eq_some hfetch
  have hjump : addrWord (s.pc.setWidth 12) = s.pc := addrWord_setWidth_of_le (by omega)
  have hstep := stepRunsDecodedInstruction s _ _ rfl hrun hpc (hword ▸ decodeEncodeRoundTrip _ rfl)
  rw [State.takeInputs_frame] at hstep
  refine ⟨_, hstep, ?_, ?_⟩
  · rw [hjump]
    exact hend
  · rw [hjump]
    rfl

/-! ### The call stack (R24) -/

theorem exec_ret_of_pos {s : State} (h : 0 < s.sp.val) :
    exec .ret s =
      .next { s with pc := s.stack[s.sp.val - 1]'(by omega), sp := ⟨s.sp.val - 1, by omega⟩ } := by
  simp [exec, execRet, State.pop, State.setPc, h]

theorem exec_ret_of_zero {s : State} (h : s.sp.val = 0) : exec .ret s = .next (s.raise .stackUnderflow) := by
  simp [exec, execRet, State.pop, h]

theorem exec_call_of_lt {nnn : Addr} {s : State} (h : s.sp.val < 16) :
    exec (.call nnn) s =
      .next { s with
        pc := addrWord nnn, stack := s.stack.set s.sp.val s.pc, sp := ⟨s.sp.val + 1, by omega⟩ } := by
  simp [exec, execCall, State.push, State.setPc, h]

theorem exec_call_of_full {nnn : Addr} {s : State} (h : s.sp.val = 16) :
    exec (.call nnn) s = .next (s.raise .stackOverflow) := by
  simp [exec, execCall, State.push, h]

/-- Widening an address changes no bit of it (R83). -/
theorem toNat_addrWord (nnn : Addr) : (addrWord nnn).toNat = nnn.toNat := by
  simp only [addrWord, BitVec.toNat_setWidth]
  omega

/-- Settles O20: by whether an entry is held; the entry that a held stack gives up is one that `PcBounded` bounds. -/
theorem retPopsTheReturnAddress : Obligations.RetPopsTheReturnAddress := by
  refine ⟨fun w hw => ?_, fun s => ⟨fun hsp => ?_, exec_ret_of_zero⟩⟩
  · obtain ⟨hop, hkk⟩ := fields_of_F0FF hw
    have hop : fieldOp w = 0x0 := hop
    have hkk : fieldKK w = 0xEE := hkk
    simp [decode, decodeFamily0, hop, hkk]
  · refine ⟨_, exec_ret_of_pos hsp, rfl, Vector.getElem?_eq_getElem _, rfl, fun hbounded => ?_⟩
    exact hbounded.2 ⟨s.sp.val - 1, by omega⟩ (Nat.sub_one_lt_of_lt hsp)

/-- Settles O22: by whether a slot is free; the write at `stack[sp]` leaves every other slot alone. -/
theorem callPushesTheAdvancedPc : Obligations.CallPushesTheAdvancedPc := by
  refine ⟨fun w hw => ?_, fun nnn s => ⟨fun hsp => ?_, exec_call_of_full⟩⟩
  · simp [decode, show fieldOp w = 0x2 from fieldOp_of_F000 hw]
  · refine ⟨_, exec_call_of_lt hsp, rfl, by simp [hsp], fun j hj => ?_, toNat_addrWord nnn, rfl⟩
    exact Vector.getElem_set_ne hsp j.isLt hj.symm

/-- Settles O23: the fetch of the `RET` leaves the call stack alone, so the `RET` pops what the `CALL` pushed. -/
theorem callThenRetRestoresPcAndSp : Obligations.CallThenRetRestoresPcAndSp := by
  intro nnn s hsp
  refine ⟨_, _, exec_call_of_lt hsp, exec_ret_of_pos (Nat.succ_pos s.sp.val), ?_, rfl⟩
  exact Vector.getElem_set_self _

/-! ### Jumps -/

/-- Settles O21: `JP` writes `pc` and no other field. -/
theorem jpSetsPc : Obligations.JpSetsPc := by
  refine ⟨fun w hw => ?_, fun nnn s => ⟨_, rfl, toNat_addrWord nnn, rfl⟩⟩
  simp [decode, show fieldOp w = 0x1 from fieldOp_of_F000 hw]

/-- The sum of a 12-bit address and a byte fits a word, so `JP V0` reduces nothing (R139, D5). -/
theorem toNat_addrWord_add_byteWord (nnn : Addr) (u : Byte) :
    (addrWord nnn + byteWord u).toNat = nnn.toNat + u.toNat := by
  simp only [addrWord, byteWord, BitVec.toNat_add, BitVec.toNat_setWidth]
  omega

/-- Settles O26: `JP V0` writes `pc` and no other field, and the 16-bit sum does not wrap. -/
theorem jpV0AddsV0 : Obligations.JpV0AddsV0 := by
  refine ⟨fun w hw => ?_, fun nnn s => ⟨_, rfl, toNat_addrWord_add_byteWord nnn (s.reg 0), rfl⟩⟩
  simp [decode, show fieldOp w = 0xB from fieldOp_of_F000 hw]

/-! ### Skips (R130) -/

/-- A skip on a test that decides `p` advances `pc` exactly when `p` holds. -/
theorem State.skipIf_of_iff (s : State) {c : Bool} {p : Prop} [Decidable p] (h : c = true ↔ p) :
    s.skipIf c = { s with pc := if p then s.pc + 2 else s.pc } := by
  simp only [State.skipIf, h]

/-- Settles O24: the two tests decide equality and inequality with the immediate. -/
theorem immediateSkips : Obligations.ImmediateSkips := by
  refine ⟨fun w hw => ?_, fun w hw => ?_, fun x kk s => ⟨?_, ?_⟩⟩
  · simp [decode, show fieldOp w = 0x3 from fieldOp_of_F000 hw]
  · simp [decode, show fieldOp w = 0x4 from fieldOp_of_F000 hw]
  · exact congrArg _ (s.skipIf_of_iff beq_iff_eq)
  · exact congrArg _ (s.skipIf_of_iff bne_iff_ne)

/-- Settles O25: the two tests decide equality and inequality of the registers, also of one register with itself. -/
theorem registerSkips : Obligations.RegisterSkips := by
  refine ⟨fun w hw => ?_, fun w hw => ?_, fun x y s => ⟨?_, ?_⟩⟩
  · simp [decode, show fieldOp w = 0x5 from fieldOp_of_F000 hw]
  · simp [decode, show fieldOp w = 0x9 from fieldOp_of_F000 hw]
  · exact congrArg _ (s.skipIf_of_iff beq_iff_eq)
  · exact congrArg _ (s.skipIf_of_iff bne_iff_ne)

end Sys2Proof.Machine
end

section
/-! PROOFS. The family of 43_register_alu.md: what each register and arithmetic-logic instruction writes to its
destination and to `VF`, and that it writes nothing else. -/

namespace Sys2Proof.Machine

/-! ### The words of family 8 -/

/-- Family 8 is decoded by its low nibble `n`, whatever its operands (R84). -/
theorem decode_family8 {w : Word} (n : BitVec 4) (h : w &&& 0xF00F = 0x8#4 ++ 0#8 ++ n) :
    decode w = decodeFamily8 w ∧ fieldN w = n := by
  obtain ⟨hop, hn⟩ := fields_of_F00F h
  have hfields : ∀ m : BitVec 4, fieldOp (0x8#4 ++ 0#8 ++ m) = 0x8 ∧ fieldN (0x8#4 ++ 0#8 ++ m) = m := by decide
  obtain ⟨hop8, hn8⟩ := hfields n
  exact ⟨by simp [decode, hop.trans hop8], hn.trans hn8⟩

/-! ### What the ALU computes (R150) -/

theorem toNat_aluAdd (a b : Byte) : (aluAdd a b).toNat = (a.toNat + b.toNat) % 256 :=
  BitVec.toNat_ofNat _ _

/-- The difference modulo 256 is the exact one, or borrows 256. -/
theorem toNat_aluSub (a b : Byte) :
    (aluSub a b).toNat =
      if a.toNat ≥ b.toNat then a.toNat - b.toNat else a.toNat + 256 - b.toNat := by
  rw [aluSub, BitVec.toNat_ofInt]
  split <;> omega

theorem toNat_aluShr (a : Byte) : (aluShr a).toNat = a.toNat / 2 := by
  simp [aluShr, Nat.shiftRight_eq_div_pow]

theorem toNat_aluShl (a : Byte) : (aluShl a).toNat = 2 * a.toNat % 256 := by
  simp [aluShl, Nat.shiftLeft_eq, Nat.mul_comm]

theorem flagByte_decide (p : Prop) [Decidable p] : flagByte (decide p) = if p then 1 else 0 := by
  by_cases hp : p <;> simp [flagByte, hp]

theorem toNat_flagByte (c : Bool) : (flagByte c).toNat = c.toNat := by
  cases c <;> rfl

theorem toNat_shrFlag (a : Byte) : (shrFlag a).toNat = a.toNat % 2 :=
  (Nat.toNat_testBit a.toNat 0).trans (by rw [pow_zero, Nat.div_one])

/-- Above bit 7 a byte has no bit, so nothing is reduced. -/
theorem toNat_shlFlag (a : Byte) : (shlFlag a).toNat = a.toNat / 128 :=
  (Nat.toNat_testBit a.toNat 7).trans (Nat.mod_eq_of_lt (by omega))

/-! ### What a register write leaves -/

theorem State.reg_setReg_of_ne {s : State} {x z : Reg} {u : Byte} (hz : z ≠ x) : (s.setReg x u).reg z = s.reg z :=
  (s.reg_setReg x z u).trans (if_neg hz)

theorem State.reg_VF_setWithFlag (s : State) (x : Reg) (u : Byte) (c : Bool) :
    (s.setWithFlag x u c).reg VF = flagByte c :=
  (s.reg_setWithFlag x VF u c).trans (if_pos rfl)

theorem State.reg_setWithFlag_same {s : State} {x : Reg} {u : Byte} {c : Bool} (hx : x ≠ VF) :
    (s.setWithFlag x u c).reg x = u :=
  (s.reg_setWithFlag x x u c).trans ((if_neg hx).trans (if_pos rfl))

theorem State.reg_setWithFlag_of_ne {s : State} {x z : Reg} {u : Byte} {c : Bool} (hx : z ≠ x) (hf : z ≠ VF) :
    (s.setWithFlag x u c).reg z = s.reg z :=
  (s.reg_setWithFlag x z u c).trans ((if_neg hf).trans (if_neg hx))

/-! ### Arithmetic with a flag, written last (R104, D8) -/

/-- Settles O31: the carry is what `VF` holds at the end; away from `VF` the destination holds the sum. -/
theorem addRegSumAndCarry : Obligations.AddRegSumAndCarry := by
  refine ⟨fun w hw => ?_, fun x y s => ⟨_, rfl, ?_, fun hx => ?_, fun z => State.reg_setWithFlag_of_ne, rfl⟩⟩
  · simp [decode_family8 0x4 hw, decodeFamily8]
  · exact (State.reg_VF_setWithFlag ..).trans (flagByte_decide _)
  · rw [State.reg_setWithFlag_same hx, toNat_aluAdd]

/-- Settles O32: the not-borrow is what `VF` holds at the end; away from `VF` the destination holds the difference. -/
theorem subRegDifferenceAndNotBorrow : Obligations.SubRegDifferenceAndNotBorrow := by
  refine ⟨fun w hw => ?_, fun x y s => ⟨_, rfl, ?_, fun hx => ?_, fun z => State.reg_setWithFlag_of_ne, rfl⟩⟩
  · simp [decode_family8 0x5 hw, decodeFamily8]
  · exact (State.reg_VF_setWithFlag ..).trans (flagByte_decide _)
  · rw [State.reg_setWithFlag_same hx, toNat_aluSub]

/-- Settles O33: the subtraction of O32 with its operands exchanged; the destination is still `V[x]`. -/
theorem subnRegReverseDifference : Obligations.SubnRegReverseDifference := by
  refine ⟨fun w hw => ?_, fun x y s => ⟨_, rfl, ?_, fun hx => ?_, fun z => State.reg_setWithFlag_of_ne, rfl⟩⟩
  · simp [decode_family8 0x7 hw, decodeFamily8]
  · exact (State.reg_VF_setWithFlag ..).trans (flagByte_decide _)
  · rw [State.reg_setWithFlag_same hx, toNat_aluSub]

/-- Settles O34: `VF` holds the bit shifted out at the end; away from `VF` the destination holds the shifted byte. -/
theorem shiftsByOne : Obligations.ShiftsByOne := by
  refine ⟨fun w hw => ?_, fun w hw => ?_, fun x s => ⟨_, _, rfl, rfl, ?_, ?_, fun hx => ⟨?_, ?_⟩,
    fun z hx hf => ⟨State.reg_setWithFlag_of_ne hx hf, State.reg_setWithFlag_of_ne hx hf⟩, rfl, rfl⟩⟩
  · simp [decode_family8 0x6 hw, decodeFamily8]
  · simp [decode_family8 0xE hw, decodeFamily8]
  · rw [State.reg_VF_setWithFlag, toNat_flagByte, toNat_shrFlag]
  · rw [State.reg_VF_setWithFlag, toNat_flagByte, toNat_shlFlag]
  · rw [State.reg_setWithFlag_same hx, toNat_aluShr]
  · rw [State.reg_setWithFlag_same hx, toNat_aluShl]

/-! ### Loads and operations without a flag -/

/-- Settles O27: the one register write is that of the immediate. -/
theorem ldImmLoadsTheImmediate : Obligations.LdImmLoadsTheImmediate := by
  refine ⟨fun w hw => ?_, fun x kk s =>
    ⟨_, rfl, s.reg_setReg_same x kk, fun z => State.reg_setReg_of_ne, rfl⟩⟩
  simp [decode, show fieldOp w = 0x6 from fieldOp_of_F000 hw]

/-- Settles O28: the one register write is that of the sum, and `VF` is written as a destination only. -/
theorem addImmWrapsWithoutFlag : Obligations.AddImmWrapsWithoutFlag := by
  refine ⟨fun w hw => ?_, fun x kk s => ⟨_, rfl, ?_, fun z => State.reg_setReg_of_ne, rfl⟩⟩
  · simp [decode, show fieldOp w = 0x7 from fieldOp_of_F000 hw]
  · rw [State.reg_setReg_same, toNat_aluAdd]

/-- Settles O29: the one register write is that of the old `V[y]`. -/
theorem ldRegCopies : Obligations.LdRegCopies := by
  refine ⟨fun w hw => ?_, fun x y s =>
    ⟨_, rfl, s.reg_setReg_same x (s.reg y), fun z => State.reg_setReg_of_ne, rfl⟩⟩
  simp [decode_family8 0x0 hw, decodeFamily8]

/-- Settles O30: the one register write is that of the bitwise result, whose bits are those of the old operands. -/
theorem bitwiseOperations : Obligations.BitwiseOperations := by
  refine ⟨fun w hw => ?_, fun w hw => ?_, fun w hw => ?_, fun x y s => ⟨_, _, _, rfl, rfl, rfl,
    fun k => ?_, fun k => ?_, fun k => ?_,
    fun z hz => ⟨State.reg_setReg_of_ne hz, State.reg_setReg_of_ne hz, State.reg_setReg_of_ne hz⟩, rfl, rfl, rfl⟩⟩
  · simp [decode_family8 0x1 hw, decodeFamily8]
  · simp [decode_family8 0x2 hw, decodeFamily8]
  · simp [decode_family8 0x3 hw, decodeFamily8]
  · rw [State.reg_setReg_same, BitVec.getLsbD_or]
  · rw [State.reg_setReg_same, BitVec.getLsbD_and]
  · rw [State.reg_setReg_same, BitVec.getLsbD_xor]

/-- Settles O35: the one register write is that of the masked byte, whatever byte the cycle sampled (D17). -/
theorem rndMasksTheRandomByte : Obligations.RndMasksTheRandomByte := by
  refine ⟨fun w hw => ?_, fun x kk s => ⟨_, rfl, fun k => ?_, fun z => State.reg_setReg_of_ne, rfl⟩⟩
  · simp [decode, show fieldOp w = 0xC from fieldOp_of_F000 hw]
  · rw [State.reg_setReg_same, BitVec.getLsbD_and]

end Sys2Proof.Machine
end

section
/-! PROOFS. The family of 44_index_memory.md: what the loads and sums of `I`, the glyph address, the decimal digits and
the two block transfers write, the bound they test first, and that they write nothing else. -/

namespace Sys2Proof.Machine

/-! ### The words of family F -/

/-- Family F is decoded by its low byte `kk`, whatever its register operand (R84). -/
theorem decode_familyF {w : Word} (kk : Byte) (h : w &&& 0xF0FF = formatXK 0xF 0 kk) :
    decode w = decodeFamilyF w ∧ fieldKK w = kk := by
  obtain ⟨hop, hkk⟩ := fields_of_F0FF h
  rw [fieldOp_formatXK] at hop
  rw [fieldKK_formatXK] at hkk
  exact ⟨by simp [decode, hop], hkk⟩

/-! ### The bound test (R59) -/

theorem State.outOfRange_iff (s : State) (last : Nat) : s.outOfRange last = true ↔ s.i.toNat + last > 0xFFF :=
  decide_eq_true_iff

/-- An instruction that tests the bound first answers its result inside the bound. -/
theorem State.boundTest_of_le {s : State} {last : Nat} (h : s.i.toNat + last ≤ 0xFFF) (t : State) :
    (if s.outOfRange last then s.raise .memoryOutOfRange else t) = t :=
  if_neg fun hout => absurd ((s.outOfRange_iff last).mp hout) (by omega)

/-- Past the bound it answers the fault, whatever its result would have been (D9). -/
theorem State.boundTest_of_gt {s : State} {last : Nat} (h : s.i.toNat + last > 0xFFF) (t : State) :
    (if s.outOfRange last then s.raise .memoryOutOfRange else t) = s.raise .memoryOutOfRange :=
  if_pos ((s.outOfRange_iff last).mpr h)

/-! ### What a store from `I` upward leaves in memory (R55) -/

theorem State.read_store_inside {s : State} {bytes : List Byte} {k : Nat} (hm : s.mem.wf = true)
    (hk : k < bytes.length) (hfit : s.i.toNat + bytes.length ≤ 4096) :
    (s.store bytes).mem.read (s.i.toNat + k) = bytes[k] :=
  Memory.read_writeBytes_inside (a := s.i.toNat) bytes hm hk (by omega)

theorem State.read_store_outside (s : State) {bytes : List Byte} {a : Nat}
    (ha : a < s.i.toNat ∨ s.i.toNat + bytes.length ≤ a) : (s.store bytes).mem.read a = s.mem.read a :=
  s.mem.read_writeBytes_outside bytes ha

/-! ### Decimal digits (R173) -/

theorem exec_ldB_of_le {x : Reg} {s : State} (h : s.i.toNat + 2 ≤ 0xFFF) :
    exec (.ldB x) s = .next (s.store (bcdDigits (s.reg x))) :=
  congrArg Host.Outcome.next (State.boundTest_of_le h _)

theorem exec_ldB_of_gt {x : Reg} {s : State} (h : s.i.toNat + 2 > 0xFFF) :
    exec (.ldB x) s = .next (s.raise .memoryOutOfRange) :=
  congrArg Host.Outcome.next (State.boundTest_of_gt h _)

@[simp] theorem length_bcdDigits (a : Byte) : (bcdDigits a).length = 3 := rfl

/-- Each digit fits its byte, so the bytes hold the digits themselves. -/
theorem map_toNat_bcdDigits (a : Byte) :
    (bcdDigits a).map BitVec.toNat = [a.toNat / 100, a.toNat / 10 % 10, a.toNat % 10] := by
  simp only [bcdDigits, List.map_cons, List.map_nil, BitVec.toNat_ofNat, List.cons.injEq, and_true]
  omega

/-- The byte that `LD B,Vx` leaves at `I + k` is the `k`-th digit. -/
theorem State.toNat_read_store_bcdDigits {x : Reg} {s : State} (hm : s.mem.wf = true) (h : s.i.toNat + 2 ≤ 0xFFF)
    {k d : Nat} (hd : ((bcdDigits (s.reg x)).map BitVec.toNat)[k]? = some d) :
    ((s.store (bcdDigits (s.reg x))).mem.read (s.i.toNat + k)).toNat = d := by
  obtain ⟨hk, hget⟩ := List.getElem?_eq_some_iff.mp hd
  rw [List.length_map] at hk
  rw [State.read_store_inside hm hk (by rw [length_bcdDigits]; omega), ← hget, List.getElem_map]

/-- Settles O38: by the bound; inside it the three bytes from `I` are the digits, and a store writes no other byte. -/
theorem ldBStoresDecimalDigits : Obligations.LdBStoresDecimalDigits := by
  refine ⟨fun w hw => ?_, fun x s hm => ⟨fun hbound => ?_, exec_ldB_of_gt⟩⟩
  · simp [decode_familyF 0x33 hw, decodeFamilyF]
  · have hdigit := fun k d => State.toNat_read_store_bcdDigits (x := x) (k := k) (d := d) hm hbound
    rw [map_toNat_bcdDigits] at hdigit
    refine ⟨_, exec_ldB_of_le hbound, hdigit 0 _ rfl, hdigit 1 _ rfl, hdigit 2 _ rfl, fun a ha => ?_, rfl⟩
    exact s.read_store_outside (by rw [length_bcdDigits]; omega)

/-! ### Block transfers (R174, R175) -/

theorem exec_storeRegs_of_gt {x : Reg} {s : State} (h : s.i.toNat + x.val > 0xFFF) :
    exec (.storeRegs x) s = .next (s.raise .memoryOutOfRange) :=
  congrArg Host.Outcome.next (State.boundTest_of_gt h _)

/-- Settles O39: by the bound; inside it the byte at `I + j` is `V[j]`, and a store writes no other byte. -/
theorem storeRegsStoresInclusive : Obligations.StoreRegsStoresInclusive := by
  refine ⟨fun w hw => ?_, fun x s hm => ⟨fun hbound => ?_, exec_storeRegs_of_gt⟩⟩
  · simp [decode_familyF 0x55 hw, decodeFamilyF]
  · refine ⟨_, exec_storeRegs_of_le hbound, fun j => State.read_store_regsUpTo hm hbound, fun a ha => ?_, rfl⟩
    exact s.read_store_outside (by rw [State.length_regsUpTo]; omega)

/-- `s` with `V[0]` to `V[x]` loaded from `I` upward: the result of `LD Vx,[I]` inside the bound. -/
def State.loadedRegs (s : State) (x : Reg) : State :=
  { s with v := setRegsFrom s.v 0 (s.mem.readBytes (s.addrOf 0) (x.val + 1)) }

theorem exec_loadRegs_of_le {x : Reg} {s : State} (h : s.i.toNat + x.val ≤ 0xFFF) :
    exec (.loadRegs x) s = .next (s.loadedRegs x) :=
  congrArg Host.Outcome.next (State.boundTest_of_le h _)

theorem exec_loadRegs_of_gt {x : Reg} {s : State} (h : s.i.toNat + x.val > 0xFFF) :
    exec (.loadRegs x) s = .next (s.raise .memoryOutOfRange) :=
  congrArg Host.Outcome.next (State.boundTest_of_gt h _)

/-- The registers up to `x` are the bytes from `I`, and those above are kept. -/
theorem State.reg_loadedRegs (s : State) (x j : Reg) :
    (s.loadedRegs x).reg j = if j.val ≤ x.val then s.mem.read (s.i.toNat + j.val) else s.reg j := by
  have hinside : (0 ≤ j.val ∧ j.val - 0 < (s.mem.readBytes (s.addrOf 0) (x.val + 1)).length) ↔ j.val ≤ x.val := by
    rw [Memory.length_readBytes]
    omega
  refine (setRegsFrom_getElem _ _ _ _ j.isLt).trans ?_
  by_cases hj : j.val ≤ x.val
  · rw [dif_pos (hinside.mpr hj), if_pos hj, Memory.getElem_readBytes]
    rfl
  · rw [dif_neg (hj ∘ hinside.mp), if_neg hj]
    rfl

/-- Settles O40: by the bound; inside it the registers up to `x` are read from `I` upward, and only registers change. -/
theorem loadRegsLoadsInclusive : Obligations.LoadRegsLoadsInclusive := by
  refine ⟨fun w hw => ?_, fun x s => ⟨fun hbound => ?_, exec_loadRegs_of_gt⟩⟩
  · simp [decode_familyF 0x65 hw, decodeFamilyF]
  · exact ⟨_, exec_loadRegs_of_le hbound, s.reg_loadedRegs x, fun _ => rfl, rfl⟩

/-- Settles O41: the store leaves `I` alone, so the load reads `V[j]` back from the byte at `I + j`. -/
theorem storeThenLoadRestoresRegisters : Obligations.StoreThenLoadRestoresRegisters := by
  intro x s v hm hbound
  refine ⟨_, _, exec_storeRegs_of_le hbound, exec_loadRegs_of_le hbound, fun j hj => ?_⟩
  rw [State.reg_loadedRegs, if_pos hj]
  exact State.read_store_regsUpTo hm hbound hj

/-! ### Loads and sums of `I` (R170, R171) -/

/-- Widening a byte changes no bit of it (R171). -/
theorem toNat_byteWord (u : Byte) : (byteWord u).toNat = u.toNat :=
  BitVec.toNat_setWidth_of_le (by decide)

/-- Settles O36: both write `I` and no other field; the 16-bit sum wraps. -/
theorem indexLoadsAndAdds : Obligations.IndexLoadsAndAdds := by
  refine ⟨fun w hw => ?_, fun w hw => ?_, fun nnn s => ⟨_, rfl, toNat_addrWord nnn, rfl⟩,
    fun x s => ⟨_, rfl, ?_, rfl⟩⟩
  · simp [decode, show fieldOp w = 0xA from fieldOp_of_F000 hw]
  · simp [decode_familyF 0x1E hw, decodeFamilyF]
  · rw [State.setI_i, BitVec.toNat_add, toNat_byteWord]

/-! ### The glyph address (R172) -/

/-- The glyph table lies below 0x200 (D1), so the address of a digit's glyph does not wrap. -/
theorem toNat_glyphAddr {d : Nat} (hd : d ≤ 15) : (glyphAddr d).toNat = Config.glyphBase.val + 5 * d := by
  have hbase := Config.glyphBase_le
  exact (BitVec.toNat_ofNat _ _).trans (Nat.mod_eq_of_lt (by omega))

theorem exec_ldF_of_le {x : Reg} {s : State} (h : (s.reg x).toNat ≤ 15) :
    exec (.ldF x) s = .next (s.setI (glyphAddr (s.reg x).toNat)) :=
  congrArg Host.Outcome.next (if_pos h)

/-- No glyph belongs to the value, and a free value is drawn (U1). -/
theorem exec_ldF_of_gt {x : Reg} {s : State} (h : (s.reg x).toNat > 15) :
    exec (.ldF x) s = .next (s.drawn.setI (Config.glyphAddrOutOfRange s.draws (s.reg x))) :=
  congrArg Host.Outcome.next (if_neg (by omega))

/-- Settles O37: by whether `V[x]` is a digit; either way only `I` is written, and above 15 the counter of draws. -/
theorem ldFPointsAtTheGlyph : Obligations.LdFPointsAtTheGlyph := by
  refine ⟨fun w hw => ?_, fun x s => ⟨fun hdigit => ?_, fun hgt => ?_⟩⟩
  · simp [decode_familyF 0x29 hw, decodeFamilyF]
  · exact ⟨_, exec_ldF_of_le hdigit, toNat_glyphAddr hdigit, rfl⟩
  · exact ⟨_, exec_ldF_of_gt hgt, rfl⟩

end Sys2Proof.Machine
end

section
/-! PROOFS. The family of 45_keys_timers.md: the key skips, the reads and writes of the timers, the wait for a key and
the event that ends it. -/

namespace Sys2Proof.Machine

/-! ### The words of format X (R82) -/

/-- A word of format X has the family and the low byte of its row, whatever its register operand (R85). -/
theorem fields_of_formatXK {w : Word} (op : BitVec 4) (kk : Byte) (h : w &&& 0xF0FF = formatXK op 0 kk) :
    fieldOp w = op ∧ fieldKK w = kk := by
  obtain ⟨hop, hkk⟩ := fields_of_F0FF h
  exact ⟨hop.trans (fieldOp_formatXK op 0 kk), hkk.trans (fieldKK_formatXK op 0 kk)⟩

/-! ### Key skips (R180, R181, R187) -/

/-- A code that the snapshot covers is tested against the snapshot, and nothing is drawn. -/
theorem State.keyTest_of_getElem? {s : State} {x : Reg} {down : Bool}
    (h : s.keysnap[(s.reg x).toNat]? = some down) (free : Nat → Byte → Bool) : s.keyTest x free = (down, s) := by
  obtain ⟨hlt, rfl⟩ := Vector.getElem?_eq_some_iff.mp h
  obtain ⟨_, e⟩ | ⟨hge, -⟩ := s.keyTest_cases x free
  · exact e
  · omega

/-- No key has the code, and a free value is drawn (U2). -/
theorem State.keyTest_of_gt {s : State} {x : Reg} (h : (s.reg x).toNat > 15) (free : Nat → Byte → Bool) :
    s.keyTest x free = (free s.draws (s.reg x), s.drawn) := by
  obtain ⟨hlt, -⟩ | ⟨_, e⟩ := s.keyTest_cases x free
  · omega
  · exact e

theorem exec_skp_of_keyTest {x : Reg} {s t : State} {down : Bool}
    (h : s.keyTest x Config.skpOutOfRange = (down, t)) : exec (.skp x) s = .next (t.skipIf down) := by
  simp only [exec, execSkp, h]

theorem exec_sknp_of_keyTest {x : Reg} {s t : State} {down : Bool}
    (h : s.keyTest x Config.sknpOutOfRange = (down, t)) : exec (.sknp x) s = .next (t.skipIf (!down)) := by
  simp only [exec, execSknp, h]

theorem State.skipIf_pc_eq_or (s : State) (c : Bool) : (s.skipIf c).pc = s.pc ∨ (s.skipIf c).pc = s.pc + 2 := by
  cases c
  · exact .inl rfl
  · exact .inr rfl

/-- Settles O43: by whether a key has the code in `V[x]`; the outcome of the key test is all that the two skips read. -/
theorem keySkips : Obligations.KeySkips := by
  refine ⟨fun w hw => ?_, fun w hw => ?_, fun x s => ⟨fun down hdown => ⟨?_, ?_⟩, fun hgt => ?_⟩⟩
  · simp [decode, decodeFamilyE, fields_of_formatXK 0xE 0x9E hw]
  · simp [decode, decodeFamilyE, fields_of_formatXK 0xE 0xA1 hw]
  · exact exec_skp_of_keyTest (State.keyTest_of_getElem? hdown _)
  · rw [exec_sknp_of_keyTest (State.keyTest_of_getElem? hdown _)]
    cases down <;> rfl
  · exact ⟨_, _, exec_skp_of_keyTest (State.keyTest_of_gt hgt _), exec_sknp_of_keyTest (State.keyTest_of_gt hgt _),
      s.drawn.skipIf_pc_eq_or _, s.drawn.skipIf_pc_eq_or _, rfl, rfl⟩

/-! ### Timers (R182, R185, R186) -/

/-- Settles O44: the one register write is that of `DT`. -/
theorem ldVxDtReadsTheDelayTimer : Obligations.LdVxDtReadsTheDelayTimer := by
  refine ⟨fun w hw => ?_, fun x s =>
    ⟨_, rfl, s.reg_setReg_same x s.dt, fun z => State.reg_setReg_of_ne, rfl⟩⟩
  simp [decode_familyF 0x07 hw, decodeFamilyF]

/-- The sound plays exactly while `ST` is above 0 (R26). -/
theorem soundActive_iff (s : State) : soundActive s = true ↔ s.st.toNat > 0 :=
  decide_eq_true_iff

/-- Settles O45: each writes its timer and no other field, and the sound follows the `ST` written. -/
theorem timerWrites : Obligations.TimerWrites := by
  refine ⟨fun w hw => ?_, fun w hw => ?_, fun x s => ⟨rfl, _, rfl, rfl, soundActive_iff _⟩⟩
  · simp [decode_familyF 0x15 hw, decodeFamilyF]
  · simp [decode_familyF 0x18 hw, decodeFamilyF]

/-! ### The wait for a key (R183, R184) -/

/-- Settles O46: `LD Vx,K` writes the status and no other field. -/
theorem ldVxKSuspends : Obligations.LdVxKSuspends := by
  refine ⟨fun w hw => ?_, fun x s => rfl⟩
  simp [decode_familyF 0x0A hw, decodeFamilyF]

/-- Settles O47: by whether a key is awaited; a key code fits the byte that the register takes. -/
theorem keyDeliverCompletesTheWait : Obligations.KeyDeliverCompletesTheWait := by
  refine fun k s => ⟨fun x hwait => ?_, fun hidle =>
    congrArg Host.Outcome.next (State.keyDeliver_of_not_waiting hidle k)⟩
  have hcode : (BitVec.ofNat 8 k.val).toNat = k.val :=
    (BitVec.toNat_ofNat _ _).trans (Nat.mod_eq_of_lt (by omega))
  refine ⟨_, congrArg Host.Outcome.next (State.keyDeliver_waitKey hwait k), ?_, fun z => State.reg_setReg_of_ne, rfl⟩
  exact (congrArg BitVec.toNat (s.reg_setReg_same x _)).trans hcode

end Sys2Proof.Machine
end

section
/-! PROOFS. The family of 60_exceptions.md: which faults an instruction raises and when, who enters WAIT_KEY, what a step
in WAIT_KEY or HALTED can change, and the count of the timers. -/

namespace Sys2Proof.Machine

/-! ### The fault conditions (R202 to R204, R59) -/

/-- A fault condition that decides `p` names its kind exactly where `p` holds. -/
theorem faultIf_eq_some_iff {c p : Prop} [Decidable c] {kind : Fault} (h : c ↔ p) (k : Fault) :
    (if c then some kind else none) = some k ↔ p ∧ k = kind := by
  rw [Option.ite_none_right_eq_some, h, Option.some.injEq, eq_comm]

theorem executeFault_ret_eq_some_iff (s : State) (k : Fault) :
    executeFault s .ret = some k ↔ s.sp.val = 0 ∧ k = .stackUnderflow :=
  faultIf_eq_some_iff (beq_iff_eq.trans Fin.ext_iff) k

theorem executeFault_call_eq_some_iff (s : State) (nnn : Addr) (k : Fault) :
    executeFault s (.call nnn) = some k ↔ s.sp.val = 16 ∧ k = .stackOverflow :=
  faultIf_eq_some_iff (beq_iff_eq.trans Fin.ext_iff) k

theorem executeFault_drw_eq_some_iff (s : State) (x y : Reg) (n : Nat) (k : Fault) :
    executeFault s (.drw x y n) = some k ↔ (0 < n ∧ s.i.toNat + n - 1 > 0xFFF) ∧ k = .memoryOutOfRange :=
  faultIf_eq_some_iff (s.drw_outOfRange_iff n) k

theorem executeFault_ldB_eq_some_iff (s : State) (x : Reg) (k : Fault) :
    executeFault s (.ldB x) = some k ↔ s.i.toNat + 2 > 0xFFF ∧ k = .memoryOutOfRange :=
  faultIf_eq_some_iff (s.outOfRange_iff 2) k

theorem executeFault_storeRegs_eq_some_iff (s : State) (x : Reg) (k : Fault) :
    executeFault s (.storeRegs x) = some k ↔ s.i.toNat + x.val > 0xFFF ∧ k = .memoryOutOfRange :=
  faultIf_eq_some_iff (s.outOfRange_iff x.val) k

theorem executeFault_loadRegs_eq_some_iff (s : State) (x : Reg) (k : Fault) :
    executeFault s (.loadRegs x) = some k ↔ s.i.toNat + x.val > 0xFFF ∧ k = .memoryOutOfRange :=
  faultIf_eq_some_iff (s.outOfRange_iff x.val) k

/-- The instructions that can fault, each with its condition and its kind (R207). -/
theorem executeFault_eq_some_iff (s : State) (i : Instr) (k : Fault) :
    executeFault s i = some k ↔
      (i = .ret ∧ s.sp.val = 0) ∧ k = .stackUnderflow ∨
      (∃ nnn, i = .call nnn ∧ s.sp.val = 16) ∧ k = .stackOverflow ∨
      ((∃ x y n, i = .drw x y n ∧ 0 < n ∧ s.i.toNat + n - 1 > 0xFFF) ∨
        (∃ x, i = .ldB x ∧ s.i.toNat + 2 > 0xFFF) ∨
        (∃ x, (i = .storeRegs x ∨ i = .loadRegs x) ∧ s.i.toNat + x.val > 0xFFF)) ∧ k = .memoryOutOfRange := by
  cases i
  case ret => simpa using executeFault_ret_eq_some_iff s k
  case call nnn => simpa using executeFault_call_eq_some_iff s nnn k
  case drw x y n => simpa using executeFault_drw_eq_some_iff s x y n k
  case ldB x => simpa using executeFault_ldB_eq_some_iff s x k
  case storeRegs x => simpa using executeFault_storeRegs_eq_some_iff s x k
  case loadRegs x => simpa using executeFault_loadRegs_eq_some_iff s x k
  -- no other instruction has a fault condition (R207)
  all_goals simp [executeFault]

/-! ### An instruction halts exactly when its fault condition holds (R207, R208) -/

/-- Where the condition holds, the instruction is the fault entry and nothing else (D9). -/
theorem exec_of_executeFault {i : Instr} {s : State} {k : Fault} (h : executeFault s i = some k) :
    exec i s = .next (s.raise k) := by
  obtain ⟨⟨rfl, hsp⟩, rfl⟩ | ⟨⟨nnn, rfl, hsp⟩, rfl⟩ | ⟨hbound, rfl⟩ := (executeFault_eq_some_iff s i k).mp h
  · exact exec_ret_of_zero hsp
  · exact exec_call_of_full hsp
  · obtain ⟨x, y, n, rfl, hn, hi⟩ | ⟨x, rfl, hi⟩ | ⟨x, rfl | rfl, hi⟩ := hbound
    · exact exec_drw_of_gt hn hi
    · exact exec_ldB_of_gt hi
    · exact exec_storeRegs_of_gt hi
    · exact exec_loadRegs_of_gt hi

/-- An instruction that leaves a running or waiting machine halted has raised its fault. -/
theorem eq_raise_of_exec_halted {i : Instr} {s t : State} (hs : s.status ≠ .halted) (h : exec i s = .next t)
    (ht : t.status = .halted) : ∃ k, executeFault s i = some k ∧ t = s.raise k := by
  obtain ⟨estatus, -⟩ | ⟨x, -, rfl⟩ | hfault := exec_status_cases h
  · exact absurd (estatus.symm.trans ht) hs
  · cases ht
  · exact hfault

theorem exec_halted_iff {i : Instr} {s t : State} (hs : s.status ≠ .halted) (h : exec i s = .next t) :
    t.status = .halted ↔ ∃ k, executeFault s i = some k := by
  refine ⟨fun ht => ?_, fun ⟨k, hk⟩ => ?_⟩
  · obtain ⟨k, hk, -⟩ := eq_raise_of_exec_halted hs h ht
    exact ⟨k, hk⟩
  · cases h.symm.trans (exec_of_executeFault hk)
    rfl

/-- Settles O14: halting is raising the instruction's own fault, and the list of the fault conditions names the
condition and the kind. -/
theorem executeTimeFaultsExactlyWhen : Obligations.ExecuteTimeFaultsExactlyWhen := by
  intro i s t hs h
  refine ⟨?_, fun r ht hr => ?_⟩
  · simp only [exec_halted_iff hs h, executeFault_eq_some_iff, exists_or, exists_eq_right]
  · obtain ⟨k, hk, rfl⟩ := eq_raise_of_exec_halted hs h ht
    cases hr
    obtain ⟨⟨rfl, -⟩, rfl⟩ | ⟨⟨nnn, rfl, -⟩, rfl⟩ | ⟨hbound, rfl⟩ := (executeFault_eq_some_iff s i k).mp hk
    · rfl
    · rfl
    · obtain ⟨x, y, n, rfl, -⟩ | ⟨x, rfl, -⟩ | ⟨x, rfl | rfl, -⟩ := hbound <;> rfl

/-- An instruction with one fault condition `p` halts exactly under it, by the fault entry. -/
theorem exec_halts_exactly_when {i : Instr} {s : State} {k : Fault} {p : Prop} (hs : s.status ≠ .halted)
    (hfault : ∀ k', executeFault s i = some k' ↔ p ∧ k' = k) :
    ∃ t, exec i s = .next t ∧ (t.status = .halted ↔ p) ∧ (t.status = .halted → t = s.raise k) := by
  obtain ⟨t, h⟩ := exec_answers_next i s
  refine ⟨t, h, ?_, fun ht => ?_⟩
  · simp [exec_halted_iff hs h, hfault]
  · obtain ⟨k', hk', rfl⟩ := eq_raise_of_exec_halted hs h ht
    rw [((hfault k').mp hk').2]

/-- Settles O13: each of the two has one fault condition, and the fault entry leaves the call stack alone. -/
theorem stackFaultsExactlyWhen : Obligations.StackFaultsExactlyWhen := by
  intro nnn s hs
  obtain ⟨t, hcall, hfull, ht⟩ := exec_halts_exactly_when hs (executeFault_call_eq_some_iff s nnn)
  obtain ⟨u, hret, hempty, hu⟩ := exec_halts_exactly_when hs (executeFault_ret_eq_some_iff s)
  refine ⟨t, u, hcall, hret, hfull, hempty, fun h => ?_, fun h => ?_⟩
  · rw [ht h]
    exact ⟨rfl, rfl, _, rfl, rfl⟩
  · rw [hu h]
    exact ⟨rfl, rfl, _, rfl, rfl⟩

/-! ### Who enters WAIT_KEY (R219) -/

/-- Settles O48: an instruction that changes the status is `LD Vx,K`, or it faults and halts. -/
theorem onlyLdVxKEntersTheWait : Obligations.OnlyLdVxKEntersTheWait := by
  intro i s t x hrun h ht
  obtain ⟨estatus, -⟩ | ⟨y, rfl, rfl⟩ | ⟨k, -, rfl⟩ := exec_status_cases h
  · cases hrun.symm.trans (estatus.symm.trans ht)
  · cases ht
    rfl
  · cases ht

/-! ### Timers (R213, R215) -/

/-- A timer at 0 stays there, as the truncated subtraction does. -/
theorem toNat_tickTimer (t : Byte) : (tickTimer t).toNat = t.toNat - 1 := by
  unfold tickTimer
  split
  · next hpos => exact BitVec.toNat_sub_of_le (show (1 : Nat) ≤ t.toNat from hpos)
  · next hzero => omega

theorem toNat_tickTimerN (n : Nat) (t : Byte) : (tickTimerN n t).toNat = t.toNat - n := by
  induction n generalizing t with
  | zero => rfl
  | succ n ih => rw [tickTimerN, ih, toNat_tickTimer, Nat.sub_sub, Nat.add_comm]

/-- Settles O51: a tick is one decrement of each timer. -/
theorem tickDecrementsTheTimers : Obligations.TickDecrementsTheTimers := by
  refine fun s => ⟨s.tick, rfl, ?_, ?_, rfl⟩
  · rw [State.tick_dt, toNat_tickTimer]
    split <;> omega
  · rw [State.tick_st, toNat_tickTimer]
    split <;> omega

/-- Settles O52: each timer by the induction on the number of ticks. -/
theorem timersCountTicks : Obligations.TimersCountTicks :=
  fun s n => ⟨toNat_tickTimerN n s.dt, toNat_tickTimerN n s.st, rfl⟩

/-! ### A step in which the engine does nothing (R209, R219, R220) -/

theorem engineTransition_of_waitKey {s : State} {x : Reg} {inp : Inputs} (hs : s.status = .waitKey x)
    (hkey : inp.keyEvent = none) : engineTransition inp s = .next s := by
  simp [engineTransition, hs, hkey, stepTransition_of_waitKey hs]

theorem engineTransition_of_halted {s : State} (hs : s.status = .halted) (inp : Inputs) :
    engineTransition inp s = .next s := by
  simp [engineTransition, hs, stepTransition_of_halted hs]

/-- What is left of a step in which the engine does nothing: inputs are taken, and the timers count down. -/
theorem step_of_idle_engine {s : State}
    (h : ∀ t : State, t.status = s.status → engineTransition s.nextInputs t = .next t) :
    ∃ t, step s = .next t ∧ t = { s with dt := t.dt, st := t.st, inputs := t.inputs, draws := t.draws } ∧
      t.dt.toNat ≤ s.dt.toNat ∧ t.st.toNat ≤ s.st.toNat := by
  refine ⟨s.takeInputs.ticks s.nextInputs.ticks, h _ (by simp), ?_, ?_, ?_⟩
  · rw [State.takeInputs_frame]
    rfl
  · simp [toNat_tickTimerN]
  · simp [toNat_tickTimerN]

/-- Settles O49: with no event presented the engine waits on. -/
theorem waitingStepChangesTimersOnly : Obligations.WaitingStepChangesTimersOnly :=
  fun _ _ hs hkey => step_of_idle_engine fun _ ht => engineTransition_of_waitKey (ht.trans hs) hkey

/-- Settles O50: the engine does nothing in HALTED, whatever is presented (D32). -/
theorem haltedIsTerminal : Obligations.HaltedIsTerminal :=
  fun _ hs => step_of_idle_engine fun _ ht => engineTransition_of_halted (ht.trans hs) _

end Sys2Proof.Machine
end

section
/-! PROOFS. The family of 70_reset_and_hazards.md: when `Load` is accepted, and what an accepted one leaves in memory and
in the registers. -/

namespace Sys2Proof.Machine

/-! ### The three answers of `Load` (R232, R234, R235) -/

theorem load_of_loaded {s : State} (hl : s.loaded = true) (bytes : List Byte) :
    load bytes s = .refused .secondLoad :=
  if_pos hl

theorem load_of_tooLarge {s : State} {bytes : List Byte} (hl : s.loaded = false) (hlen : 3584 < bytes.length) :
    load bytes s = .fault .programTooLarge := by
  simp [load, hl, hlen]

theorem load_of_fits {s : State} {bytes : List Byte} (hl : s.loaded = false) (hlen : bytes.length ≤ 3584) :
    load bytes s = .next (s.loadProgram bytes) := by
  simp [load, hl, Nat.not_lt.mpr hlen]

/-! ### What an accepted `Load` leaves (R234) -/

@[simp] theorem State.reg_loadProgram (s : State) (bytes : List Byte) (x : Reg) : (s.loadProgram bytes).reg x = 0 :=
  Vector.getElem_replicate x.isLt

/-- A program of at most 3584 bytes ends inside the 4096 bytes of memory. -/
theorem State.read_loadProgram_inside {s : State} {bytes : List Byte} {k : Nat} (hm : s.mem.wf = true)
    (hlen : bytes.length ≤ 3584) (hk : k < bytes.length) : (s.loadProgram bytes).mem.read (0x200 + k) = bytes[k] :=
  Memory.read_writeBytes_inside (a := 0x200) bytes hm hk (by omega)

theorem State.read_loadProgram_outside (s : State) {bytes : List Byte} {a : Nat}
    (ha : a < 0x200 ∨ 0x200 + bytes.length ≤ a) : (s.loadProgram bytes).mem.read a = s.mem.read a :=
  s.mem.read_writeBytes_outside bytes ha

/-- Settles O54: the program is read back from the block `Load` writes; the CPU state is that of `loadProgram`. -/
theorem loadPlacesTheProgram : Obligations.LoadPlacesTheProgram := by
  intro bytes s hm hl hlen
  refine ⟨s.loadProgram bytes, load_of_fits hl hlen, fun k b hb => ?_, fun a ha => s.read_loadProgram_outside ha,
    s.reg_loadProgram bytes, rfl, rfl, rfl, rfl, rfl, rfl, rfl, rfl⟩
  obtain ⟨hk, rfl⟩ := List.getElem?_eq_some_iff.mp hb
  exact State.read_loadProgram_inside hm hlen hk

/-- Settles O55: the three answers of `Load`, with 3584 bytes the longest program accepted. -/
theorem loadRejections : Obligations.LoadRejections :=
  fun bytes _ => ⟨load_of_tooLarge, fun hl hlen => ⟨_, load_of_fits hl hlen.le⟩, fun hl => load_of_loaded hl bytes⟩

end Sys2Proof.Machine
end

section
/-! PROOFS. The family of the statements that lie across the sections: the bits the decoder ignores, that every step
answers and is the transitions chosen for it, the frame of a fault, and the machine that `Construct` leaves. -/

namespace Sys2Proof.Machine

/-! ### The bits that the decoder ignores (R87, D11) -/

/-- Words that agree under a mask agree under every mask within it. -/
theorem and_eq_and_of_mask_le {w w' m : Word} (h : w &&& m = w' &&& m) {k : Word} (hk : m &&& k = k) :
    w &&& k = w' &&& k := by
  rw [← hk, ← BitVec.and_assoc, h, BitVec.and_assoc]

theorem fieldX_and_0F00 (w : Word) : fieldX (w &&& 0x0F00) = fieldX w := by
  have hbits : (w &&& 0x0F00).extractLsb' 8 4 = w.extractLsb' 8 4 := by
    apply BitVec.eq_of_getLsbD_eq
    intro k hk
    simp only [BitVec.getLsbD_extractLsb', BitVec.getLsbD_and]
    interval_cases k <;> simp
  exact congrArg BitVec.toFin hbits

theorem fieldY_and_00F0 (w : Word) : fieldY (w &&& 0x00F0) = fieldY w := by
  have hbits : (w &&& 0x00F0).extractLsb' 4 4 = w.extractLsb' 4 4 := by
    apply BitVec.eq_of_getLsbD_eq
    intro k hk
    simp only [BitVec.getLsbD_extractLsb', BitVec.getLsbD_and]
    interval_cases k <;> simp
  exact congrArg BitVec.toFin hbits

/-- The first register operand of two words that agree under a mask with the bits 11:8. -/
theorem fieldX_eq_of_mask {w w' m : Word} (h : w &&& m = w' &&& m) (hm : m &&& 0x0F00 = 0x0F00) :
    fieldX w = fieldX w' := by
  rw [← fieldX_and_0F00 w, and_eq_and_of_mask_le h hm, fieldX_and_0F00]

/-- The second register operand of two words that agree under a mask with the bits 7:4. -/
theorem fieldY_eq_of_mask {w w' m : Word} (h : w &&& m = w' &&& m) (hm : m &&& 0x00F0 = 0x00F0) :
    fieldY w = fieldY w' := by
  rw [← fieldY_and_00F0 w, and_eq_and_of_mask_le h hm, fieldY_and_00F0]

/-- Settles O5: the word's row of R85 fixes the instruction up to operands that the mask covers. -/
theorem ignoredBitsDoNotAffectDecoding : Obligations.IgnoredBitsDoNotAffectDecoding := by
  obtain ⟨hret, -⟩ := retPopsTheReturnAddress
  obtain ⟨hse, hsne, -⟩ := registerSkips
  obtain ⟨hshr, hshl, -⟩ := shiftsByOne
  refine ⟨fun w => decode_cls, hret, fun w w' h hfamily => ?_, fun w w' h hrow => ?_⟩
  · have hfamily' : w &&& 0xF000 = w' &&& 0xF000 := and_eq_and_of_mask_le h (by decide)
    have hx : fieldX w = fieldX w' := fieldX_eq_of_mask h (by decide)
    have hy : fieldY w = fieldY w' := fieldY_eq_of_mask h (by decide)
    obtain hw | hw := hfamily
    · rw [hse w hw, hse w' (hfamily'.symm.trans hw), hx, hy]
    · rw [hsne w hw, hsne w' (hfamily'.symm.trans hw), hx, hy]
  · have hrow' : w &&& 0xF00F = w' &&& 0xF00F := and_eq_and_of_mask_le h (by decide)
    have hx : fieldX w = fieldX w' := fieldX_eq_of_mask h (by decide)
    obtain hw | hw := hrow
    · rw [hshr w hw, hshr w' (hrow'.symm.trans hw), hx]
    · rw [hshl w hw, hshl w' (hrow'.symm.trans hw), hx]

/-! ### Every step answers a next state (log 7) -/

/-- A cycle faults into a next state or answers what the decoded instruction answers. -/
theorem cycle_answers_next (keys : Vector Bool 16) (r : Byte) (s : State) : ∃ t, cycle keys r s = .next t := by
  obtain ⟨-, e⟩ | ⟨w, -, -, ⟨_, -, e⟩ | ⟨i, -, e⟩⟩ := cycle_cases keys r s
  · exact ⟨_, e⟩
  · exact ⟨_, e⟩
  · rw [e]
    exact exec_answers_next i _

theorem engineTransition_answers_next (inp : Inputs) (s : State) : ∃ t, engineTransition inp s = .next t := by
  obtain ⟨-, e⟩ | ⟨-, e⟩ | ⟨_, -, -, e⟩ | ⟨_, _, -, -, e⟩ := engineTransition_cases inp s
  · rw [e]
    exact cycle_answers_next _ _ s
  all_goals exact ⟨_, e⟩

/-- Settles O11: a step is an engine transition, and each of those answers. -/
theorem everyStepAnswersANextState : Obligations.EveryStepAnswersANextState := by
  intro s
  rw [step_eq]
  exact engineTransition_answers_next _ _

/-! ### The frame of a fault (R105, D9) -/

/-- Settles O12: an instruction halts the machine by the fault entry alone, which records the latched word and the
`pc`. -/
theorem faultingInstructionChangesNothingElse : Obligations.FaultingInstructionChangesNothingElse := by
  intro i s t hs h ht
  obtain ⟨k, -, rfl⟩ := eq_raise_of_exec_halted hs h ht
  exact ⟨k, rfl⟩

/-! ### A step under chosen inputs (R110, log 6) -/

/-- A step takes the inputs at the head of the list: first their ticks, then the engine's transition. -/
theorem step_of_inputs_cons (s : State) (inp : Inputs) (rest : List Inputs) :
    step { s with inputs := inp :: rest } = engineTransition inp ({ s with inputs := rest }.ticks inp.ticks) := rfl

/-- The ticks are done before the engine's transition, which does not count them. -/
theorem engineTransition_ticks_irrelevant (n m : Nat) (keys : Vector Bool 16) (ev : Option Key) (r : Byte)
    (s : State) : engineTransition ⟨n, keys, ev, r⟩ s = engineTransition ⟨m, keys, ev, r⟩ s := rfl

/-- Unless a key is awaited and an event is there, the engine's transition is `Step`. -/
theorem engineTransition_eq_stepTransition {inp : Inputs} {s : State}
    (h : inp.keyEvent = none ∨ ∀ x, s.status ≠ .waitKey x) :
    engineTransition inp s = stepTransition inp.keys inp.rnd s := by
  cases hs : s.status with
  | running => rw [engineTransition_of_running hs, stepTransition_of_running hs]
  | halted => rw [engineTransition_of_halted hs, stepTransition_of_halted hs]
  | waitKey x =>
    have hkey : inp.keyEvent = none := h.resolve_right fun hidle => hidle x hs
    rw [engineTransition_of_waitKey hs hkey, stepTransition_of_waitKey hs]

/-- An event that is there while a key is awaited is delivered (R184). -/
theorem engineTransition_of_keyEvent {inp : Inputs} {s : State} {x : Reg} {k : Key} (hs : s.status = .waitKey x)
    (hkey : inp.keyEvent = some k) : engineTransition inp s = .next (s.keyDeliver k) := by
  simp [engineTransition, hs, hkey]

/-- Settles O10: the first tick of the chosen record can be taken before the step; with none left the step is the
engine's transition, `Step` or `KeyDeliver` by the status and the event. -/
theorem chosenInputsGiveChosenTransitions : Obligations.ChosenInputsGiveChosenTransitions := by
  intro s n keys ev r rest
  refine ⟨?_, fun hidle => ?_, fun k x hkey hwait => ?_⟩
  · rw [step_of_inputs_cons, step_of_inputs_cons, State.ticks_succ]
    exact engineTransition_ticks_irrelevant (n + 1) n keys ev r _
  · rw [step_of_inputs_cons, State.ticks_zero]
    exact engineTransition_eq_stepTransition hidle
  · rw [step_of_inputs_cons, State.ticks_zero]
    exact engineTransition_of_keyEvent hwait hkey

/-! ### What memory reads as when nothing has been written (R35, R52, D3) -/

theorem glyphTableByte_inside (base : Nat) (data : Vector Byte 80) (k : Fin 80) :
    glyphTableByte base data (base + k.val) = data[k] := by
  simp [glyphTableByte]

theorem glyphTableByte_outside {base a : Nat} (data : Vector Byte 80) (h : a < base ∨ base + 80 ≤ a) :
    glyphTableByte base data a = 0 :=
  dif_neg (by omega)

/-- Unwritten memory is the glyph table in zeros: the table ends at or below 0x200 (D1), so the addresses from there
upward, which `Memory.unlisted` tests first, are outside it. -/
theorem Memory.unlisted_eq_glyphTableByte (a : Nat) :
    Memory.unlisted a = glyphTableByte Config.glyphBase Config.glyphData a := by
  have htable := Config.glyphBase_le
  unfold Memory.unlisted
  split
  · next ha => exact (glyphTableByte_outside _ (by omega)).symm
  · rfl

/-- No glyph byte lies at 0x200 or above (D1, D3). -/
theorem Memory.unlisted_of_ge {a : Nat} (ha : 0x200 ≤ a) : Memory.unlisted a = 0 :=
  if_pos ha

/-! ### The reset state (R231, R35) -/

/-- Settles O53: `Construct` leaves the reset state, in which memory lists no cell, the framebuffer is the cleared one
and the other fields are literals. -/
theorem constructLeavesTheResetState : Obligations.ConstructLeavesTheResetState := by
  refine fun s => ⟨s.construct, rfl, fun k => ?_, fun a ha => ?_, Framebuffer.get_clear,
    fun x => Vector.getElem_replicate x.isLt, rfl, rfl, rfl, rfl, rfl, rfl, rfl⟩
  · exact (Memory.unlisted_eq_glyphTableByte _).trans (glyphTableByte_inside _ _ k)
  · refine (Memory.unlisted_eq_glyphTableByte a).trans (glyphTableByte_outside _ ?_)
    by_contra hin
    exact ha ⟨a - Config.glyphBase.val, by omega⟩ (by simp only; omega)

/-- With no program byte in memory the word at the reset `pc` is 0x0000. -/
theorem State.fetchWord_reset : State.reset.fetchWord = some 0x0000 := by
  have hhigh : State.reset.mem.read 0x200 = 0 := Memory.unlisted_of_ge (by decide)
  have hlow : State.reset.mem.read 0x201 = 0 := Memory.unlisted_of_ge (by decide)
  rw [State.fetchWord_of_lt (by decide)]
  exact congrArg some (congrArg₂ wordOfBytes hhigh hlow)

/-- A running machine halts on a word of no row of R85; neither the ticks nor the inputs of the step matter (R201). -/
theorem step_halts_on_invalidOpcode {s : State} {w : Word} {e : DecodeError} (hs : s.status = .running)
    (hfetch : s.fetchWord = some w) (hd : decode w = .error e) :
    ∃ t, step s = .next t ∧ t.status = .halted ∧ t.fault = some ⟨.invalidOpcode, some w, s.pc + 2⟩ := by
  obtain ⟨hpc, hword⟩ := State.fetchWord_eq_some hfetch
  have hrun : (s.takeInputs.ticks s.nextInputs.ticks).status = .running := by simpa using hs
  refine ⟨(((s.takeInputs.ticks s.nextInputs.ticks).latch s.nextInputs.keys s.nextInputs.rnd).fetched w).raise
    .invalidOpcode, ?_, rfl, by simp⟩
  rw [step_eq, engineTransition_of_running hrun, cycle_of_lt (by simpa using hpc) (by simpa using hword.symm),
    dispatch_error hd]

/-- Settles O56: the first cycle fetches 0x0000, a word of no row of R85. -/
theorem emptyProgramHaltsAtOnce : Obligations.EmptyProgramHaltsAtOnce := by
  obtain ⟨-, -, -, -, -, -, -, hinvalid⟩ := sampleWordsDecode
  exact step_halts_on_invalidOpcode rfl State.fetchWord_reset hinvalid

end Sys2Proof.Machine
end
